-- ==== Sys2Proof/Word.lean ====
section
/-! DEFINITION. The word types of the block: bytes (data and key elements, 00_scope.md R9) and
32-bit register values and command words. Bit 0 is the least significant bit (R10). -/

namespace Sys2Proof

/-- A data or key element, an unsigned integer in [0,255] (00_scope.md R9). -/
abbrev Byte := BitVec 8

/-- A register value or a command word, 32 bits (00_scope.md R9, 30_encoding.md R70). -/
abbrev Word := BitVec 32

end Sys2Proof
end

