-- ==== Sys2Proof/Syntax.lean ====
section
/-! DEFINITION. The fifteen commands of ASCE-CMD version 1, one constructor per row of the opcode
map (30_encoding.md R75). Operands have exactly the width of their field (R73, R74), so every term
is a well-formed command. -/

namespace Sys2Proof

/-- A command with its operand. -/
inductive Instr where
  /-- `NOP`, opcode 0x00 (43_control.md R160). -/
  | nop
  /-- `CLR_ERR`, opcode 0x01 (43_control.md R161). -/
  | clrErr
  /-- `KS_CLR`, opcode 0x10 (40_key_derivation.md R101). -/
  | ksClr
  /-- `KS_PUSH b`, opcode 0x11 (40_key_derivation.md R102). -/
  | ksPush (b : Byte)
  /-- `KD_PARSE`, opcode 0x12 (40_key_derivation.md R104). -/
  | kdParse
  /-- `KB_CLR`, opcode 0x18 (40_key_derivation.md R106). -/
  | kbClr
  /-- `KB_PUSH b`, opcode 0x19 (40_key_derivation.md R107). -/
  | kbPush (b : Byte)
  /-- `KB_READ idx`, opcode 0x1A (40_key_derivation.md R108). -/
  | kbRead (idx : BitVec 16)
  /-- `KD_VALIDATE`, opcode 0x1B (41_key_validation.md R120). -/
  | kdValidate
  /-- `ENG_NEW`, opcode 0x20 (42_cipher_engine.md R133). -/
  | engNew
  /-- `KEY_READ idx`, opcode 0x21 (42_cipher_engine.md R134). -/
  | keyRead (idx : BitVec 16)
  /-- `MSG_ENC`, opcode 0x30 (42_cipher_engine.md R136). -/
  | msgEnc
  /-- `MSG_DEC`, opcode 0x31 (42_cipher_engine.md R137). -/
  | msgDec
  /-- `MSG_END`, opcode 0x32 (42_cipher_engine.md R138). -/
  | msgEnd
  /-- `XFER d`, opcode 0x33 (42_cipher_engine.md R139). -/
  | xfer (d : Byte)
deriving DecidableEq, Repr

end Sys2Proof
end

