-- ==== Sys2Proof/Decode.lean ====
section
/-! DEFINITION. Decoding of command words (30_encoding.md R70 to R77, R81), the opcode table as
data (R75), and the encoder. -/

namespace Sys2Proof

/-- Why a word is illegal, the two cases of 30_encoding.md R76. -/
inductive IllegalReason where
  /-- The opcode `w[7:0]` is none of the fifteen. -/
  | unassignedOpcode
  /-- The opcode is assigned and a reserved bit of its format is 1. -/
  | reservedBits
deriving DecidableEq, Repr

/-- "either one command with its operand, or `Illegal`" (30_encoding.md R81). -/
inductive Decoded where
  | command (i : Instr)
  | illegal (why : IllegalReason)
deriving DecidableEq, Repr

/-- `w[7:0]`, in every format (30_encoding.md R71). -/
def opcodeOf (w : Word) : BitVec 8 := w.extractLsb' 0 8

/-- `b = w[15:8]` of format B (30_encoding.md R74). -/
def byteField (w : Word) : Byte := w.extractLsb' 8 8

/-- `idx = w[23:8]` of format I (30_encoding.md R73). -/
def indexField (w : Word) : BitVec 16 := w.extractLsb' 8 16

/-- Format N: bits [31:8] are reserved and must be 0 (30_encoding.md R72). -/
def formatN (w : Word) (i : Instr) : Decoded :=
  if w.extractLsb' 8 24 = 0#24 then .command i else .illegal .reservedBits

/-- Format B: bits [31:16] are reserved and must be 0 (30_encoding.md R74). -/
def formatB (w : Word) (i : Byte → Instr) : Decoded :=
  if w.extractLsb' 16 16 = 0#16 then .command (i (byteField w)) else .illegal .reservedBits

/-- Format I: bits [31:24] are reserved and must be 0 (30_encoding.md R73). -/
def formatI (w : Word) (i : BitVec 16 → Instr) : Decoded :=
  if w.extractLsb' 24 8 = 0#8 then .command (i (indexField w)) else .illegal .reservedBits

/-- `Decode(w)` (30_encoding.md R81). -/
def decode (w : Word) : Decoded :=
  match (opcodeOf w).toNat with
  | 0x00 => formatN w .nop
  | 0x01 => formatN w .clrErr
  | 0x10 => formatN w .ksClr
  | 0x11 => formatB w .ksPush
  | 0x12 => formatN w .kdParse
  | 0x18 => formatN w .kbClr
  | 0x19 => formatB w .kbPush
  | 0x1A => formatI w .kbRead
  | 0x1B => formatN w .kdValidate
  | 0x20 => formatN w .engNew
  | 0x21 => formatI w .keyRead
  | 0x30 => formatN w .msgEnc
  | 0x31 => formatN w .msgDec
  | 0x32 => formatN w .msgEnd
  | 0x33 => formatB w .xfer
  | _    => .illegal .unassignedOpcode

/-! ### The encoder -/

/-- Format N, pattern `00000000 00000000 00000000 oooooooo` (30_encoding.md R72). -/
def encodeN (op : BitVec 8) : Word := 0#24 ++ op

/-- Format B, pattern `00000000 00000000 bbbbbbbb oooooooo` (30_encoding.md R74). -/
def encodeB (op : BitVec 8) (b : Byte) : Word := (0#16 ++ b) ++ op

/-- Format I, pattern `00000000 iiiiiiii iiiiiiii oooooooo` (30_encoding.md R73). -/
def encodeI (op : BitVec 8) (idx : BitVec 16) : Word := (0#8 ++ idx) ++ op

/-- The command word of an instruction (30_encoding.md R72 to R75). -/
def encode : Instr → Word
  | .nop        => encodeN 0x00#8
  | .clrErr     => encodeN 0x01#8
  | .ksClr      => encodeN 0x10#8
  | .ksPush b   => encodeB 0x11#8 b
  | .kdParse    => encodeN 0x12#8
  | .kbClr      => encodeN 0x18#8
  | .kbPush b   => encodeB 0x19#8 b
  | .kbRead i   => encodeI 0x1A#8 i
  | .kdValidate => encodeN 0x1B#8
  | .engNew     => encodeN 0x20#8
  | .keyRead i  => encodeI 0x21#8 i
  | .msgEnc     => encodeN 0x30#8
  | .msgDec     => encodeN 0x31#8
  | .msgEnd     => encodeN 0x32#8
  | .xfer d     => encodeB 0x33#8 d

/-! ### The opcode table as data -/

/-- A row of 30_encoding.md R75: `(w & mask) == match` selects the command. -/
structure OpcodeRow where
  pattern : Word
  mask    : Word
deriving DecidableEq, Repr

/-- The `match` and `mask` columns of 30_encoding.md R75, in the table's order. -/
def opcodeTable : List OpcodeRow :=
  [⟨0x00000000#32, 0xFFFFFFFF#32⟩, ⟨0x00000001#32, 0xFFFFFFFF#32⟩, ⟨0x00000010#32, 0xFFFFFFFF#32⟩,
   ⟨0x00000011#32, 0xFFFF00FF#32⟩, ⟨0x00000012#32, 0xFFFFFFFF#32⟩, ⟨0x00000018#32, 0xFFFFFFFF#32⟩,
   ⟨0x00000019#32, 0xFFFF00FF#32⟩, ⟨0x0000001A#32, 0xFF0000FF#32⟩, ⟨0x0000001B#32, 0xFFFFFFFF#32⟩,
   ⟨0x00000020#32, 0xFFFFFFFF#32⟩, ⟨0x00000021#32, 0xFF0000FF#32⟩, ⟨0x00000030#32, 0xFFFFFFFF#32⟩,
   ⟨0x00000031#32, 0xFFFFFFFF#32⟩, ⟨0x00000032#32, 0xFFFFFFFF#32⟩, ⟨0x00000033#32, 0xFFFF00FF#32⟩]

/-- The row of 30_encoding.md R75 that an instruction stands in. -/
def rowOf : Instr → OpcodeRow
  | .nop        => ⟨0x00000000#32, 0xFFFFFFFF#32⟩
  | .clrErr     => ⟨0x00000001#32, 0xFFFFFFFF#32⟩
  | .ksClr      => ⟨0x00000010#32, 0xFFFFFFFF#32⟩
  | .ksPush _   => ⟨0x00000011#32, 0xFFFF00FF#32⟩
  | .kdParse    => ⟨0x00000012#32, 0xFFFFFFFF#32⟩
  | .kbClr      => ⟨0x00000018#32, 0xFFFFFFFF#32⟩
  | .kbPush _   => ⟨0x00000019#32, 0xFFFF00FF#32⟩
  | .kbRead _   => ⟨0x0000001A#32, 0xFF0000FF#32⟩
  | .kdValidate => ⟨0x0000001B#32, 0xFFFFFFFF#32⟩
  | .engNew     => ⟨0x00000020#32, 0xFFFFFFFF#32⟩
  | .keyRead _  => ⟨0x00000021#32, 0xFF0000FF#32⟩
  | .msgEnc     => ⟨0x00000030#32, 0xFFFFFFFF#32⟩
  | .msgDec     => ⟨0x00000031#32, 0xFFFFFFFF#32⟩
  | .msgEnd     => ⟨0x00000032#32, 0xFFFFFFFF#32⟩
  | .xfer _     => ⟨0x00000033#32, 0xFFFF00FF#32⟩

/-- `(w & mask) == match` (30_encoding.md R75). -/
def OpcodeRow.selects (r : OpcodeRow) (w : Word) : Bool := w &&& r.mask == r.pattern

/-! ### The table's words -/

/-- The command word that `nbits` table bits and zeros above them make. -/
def tableWord (nbits w : Nat) : Word := BitVec.ofNat 32 (w % 2 ^ nbits)

/-- What the decoder reads from a word of the opcode table. A command is exactly one 32-bit word
(30_encoding.md R70), so more bits than 32 are no command. -/
def decodeTableWord (nbits w : Nat) : Option Instr :=
  if nbits ≤ 32 then
    match decode (tableWord nbits w) with
    | .command i => some i
    | .illegal _ => none
  else none

end Sys2Proof
end

