-- ==== Sys2Proof/Config.lean ====
section
/-! DEFINITION. What an implementation fixes: the parameters of 00_scope.md R8 and the platform's
window base (20_memory.md R51). -/

namespace Sys2Proof.Config

/-- `KEY_MAX`, the largest key length `KD_VALIDATE` accepts (00_scope.md R8). -/
def KEY_MAX : Nat := 1024

/-- `CAP`, the capacity in bytes of each of KS, KB and KEY; 4096 on this hardware (00_scope.md R8,
assumption log 1). -/
def CAP : Nat := 4096

/-- The command-set version that `VERSION` reads (00_scope.md R2, 10_state.md R33). -/
def VERSION : Nat := 1

/-- The platform's choice of window, counted in 64-byte units: open (20_memory.md R51,
92_eei_decisions.md D27), so it has no value here (assumption log 2). -/
opaque asceBaseUnit : Nat

/-- `ASCE_BASE`, the window's base address, "aligned to 64 bytes" (20_memory.md R51). -/
def ASCE_BASE : Nat := 64 * asceBaseUnit

end Sys2Proof.Config
end

