-- ==== Sys2Proof/Machine/Access.lean ====
section
/-! DEFINITION. What reaches the block from outside: the host's accesses to the register window
(20_memory.md R51, R52) and the reset input (70_reset_and_hazards.md R200). -/

namespace Sys2Proof.Machine

/-- One event the block meets. `off` is the byte offset in the 64-byte window; since `ASCE_BASE` is
64-byte aligned it is address bits [5:0] (20_memory.md R51, assumption log 2). `bits` is the width
of the access. -/
inductive HostEvent where
  /-- `BusRead(off)`, `bits` wide (20_memory.md R52). -/
  | read (off : BitVec 6) (bits : Nat)
  /-- `BusWrite(off, v)`, `bits` wide (20_memory.md R52). -/
  | write (off : BitVec 6) (bits : Nat) (v : Word)
  /-- `rst_n` asserted and released between two accesses (70_reset_and_hazards.md R200,
  assumption log 9). -/
  | reset
deriving DecidableEq, Repr

/-- The register names of the window (10_state.md R34). -/
inductive RegName where
  | CMD | STATUS | RES | KSLEN | KBLEN | KLEN | KIDX | POS | CAPR | VERSION
deriving DecidableEq, Repr

/-- A register's byte offset (10_state.md R34). -/
def RegName.offset : RegName → BitVec 6
  | .CMD     => 0x00#6
  | .STATUS  => 0x04#6
  | .RES     => 0x08#6
  | .KSLEN   => 0x0C#6
  | .KBLEN   => 0x10#6
  | .KLEN    => 0x14#6
  | .KIDX    => 0x18#6
  | .POS     => 0x1C#6
  | .CAPR    => 0x20#6
  | .VERSION => 0x24#6

/-- The host's 32-bit write of a word to `CMD` (30_encoding.md R70). -/
def HostEvent.command (w : Word) : HostEvent := .write RegName.CMD.offset 32 w

/-- The host's 32-bit read of a named register, `RD <register>` of 30_encoding.md R79. -/
def HostEvent.rd (r : RegName) : HostEvent := .read r.offset 32

/-- An offset that is a multiple of 4 (20_memory.md R52). -/
def offsetAligned (off : BitVec 6) : Bool := off.toNat % 4 == 0

/-- The platform address of a window offset (20_memory.md R51). -/
def busAddress (off : BitVec 6) : Nat := Config.ASCE_BASE + off.toNat

/-- "The block decodes only address bits [5:2] of an access within its window" (20_memory.md R51):
the register selected by a platform address. -/
def selectOfAddress (addr : Nat) : Nat := addr / 4 % 16

/-- The same four bits taken from an offset. -/
def selectOf (off : BitVec 6) : BitVec 4 := off.extractLsb' 2 4

end Sys2Proof.Machine
end

