-- ==== Sys2Proof/Machine/State.lean ====
section
/-! DEFINITION. The state of the block: the architectural tuple of 10_state.md R22, the fault log
of 60_exceptions.md R185, and the model's two lists for the host's side of the window. -/

namespace Sys2Proof.Machine

/-- A byte memory (KS, KB or KEY): the bytes that differ from what an unlisted index reads as, at
strictly rising indices (`Memory.wf`). -/
abbrev Memory := List Host.Cell

/-- The verdict register `VRES` (10_state.md R26). -/
inductive Verdict where
  /-- 0: not validated since `KB` last changed. -/
  | none
  /-- 1: the length is in 1..1024. -/
  | ok
  /-- 2: the source's `InvalidKey` with reason "empty". -/
  | empty
  /-- 3: the source's `InvalidKey` with reason "too_long". -/
  | tooLong
deriving DecidableEq, Repr

/-- `MODE` (10_state.md R30): 0 encrypt, 1 decrypt. -/
inductive Mode where
  | encrypt
  | decrypt
deriving DecidableEq, Repr

/-- The six fault codes `ERR` can record (60_exceptions.md R171). -/
inductive ErrCode where
  /-- 0x01, any illegal word. -/
  | illegalCommand
  /-- 0x02, `XFER` with `ACTIVE = 1` and `L = 0`. -/
  | moduloByZero
  /-- 0x03, `XFER` with `ACTIVE = 0`. -/
  | noMessage
  /-- 0x04, `KS_PUSH` with `KSLEN = CAP`. -/
  | ksOverflow
  /-- 0x05, `KB_PUSH` with `KBLEN = CAP`. -/
  | kbOverflow
  /-- 0x06, `KB_READ` or `KEY_READ` beyond the length. -/
  | indexRange
deriving DecidableEq, Repr

/-- The whole machine. The first fourteen fields are the rows of 10_state.md R22, in its order. -/
structure State where
  /-- `KS`: key-specification bytes. -/
  ks     : Memory
  /-- `KSLEN`: number of valid bytes in KS. -/
  kslen  : Nat
  /-- `KB`: key bytes. -/
  kb     : Memory
  /-- `KBLEN`: number of valid bytes in KB. -/
  kblen  : Nat
  /-- `KDNUM`: the last `KD_PARSE` took numeric mode. -/
  kdnum  : Bool
  /-- `VRES`: verdict of the last `KD_VALIDATE` on the current KB. -/
  vres   : Verdict
  /-- `KEY`: the engine key. -/
  key    : Memory
  /-- `L`, register `KLEN`: the key length. -/
  klen   : Nat
  /-- `KIDX`: the cyclic key index, the key byte the next `XFER` uses. -/
  kidx   : Nat
  /-- `ACTIVE`: a message is open. -/
  active : Bool
  /-- `MODE`: the transform of the open message. -/
  mode   : Mode
  /-- `POS`: bytes transformed in the current or last message, mod 2^32. -/
  pos    : BitVec 32
  /-- `RES`: the last result byte. -/
  res    : Byte
  /-- `ERR`: the sticky fault code; `none` is code 0x00, no fault recorded (60_exceptions.md R171). -/
  err    : Option ErrCode
  /-- The monotone fault log of 60_exceptions.md R185, oldest first; outside the architectural
  state (assumption log 6). -/
  faultLog : List ErrCode
  /-- The model's own: the host's accesses and resets not yet served, in reception order
  (20_memory.md R59, assumption log 4). -/
  inputs   : List HostEvent
  /-- The model's own: the values the host's reads returned on `rdata`, oldest first
  (70_reset_and_hazards.md R201, assumption log 5). -/
  reads    : List Word
deriving DecidableEq, Repr

/-- Stops of the model that are no architectural fault. -/
inductive Fault where
  /-- Raised by a command that would touch a byte-memory index at or above `CAP`, which no memory
  has (10_state.md R22). Safe: no state that meets the invariants of R39 raises it
  (assumption log 7). -/
  | indexBeyondCap
deriving DecidableEq, Repr

/-- Accesses without a meaning. -/
inductive Refusal where
  /-- Raised by `exec` for an instruction that has no meaning yet; safe. -/
  | notModelled (mnemonic : String)
  /-- Raised by a step that meets an access narrower or wider than 32 bits: "A model refuses such
  an access" (20_memory.md R53); safe. -/
  | accessWidth
  /-- Raised by a step that meets an access at an offset that is not a multiple of 4
  (20_memory.md R53); safe. -/
  | misalignedOffset
deriving DecidableEq, Repr

/-- The machine right after reset (10_state.md R42); the byte memories list nothing (assumption
log 3), and nothing has been logged or read and no access has arrived (assumption logs 4 to 6). -/
def State.reset : State where
  ks := []
  kslen := 0
  kb := []
  kblen := 0
  kdnum := false
  vres := .none
  key := []
  klen := 0
  kidx := 0
  active := false
  mode := .encrypt
  pos := 0#32
  res := 0#8
  err := none
  faultLog := []
  inputs := []
  reads := []

end Sys2Proof.Machine
end

