-- ==== Sys2Proof/Machine/Ops.lean ====
section
/-! DEFINITION. The shared operations over byte memories and state: reading and writing bytes, the
index guard, taking a fault (60_exceptions.md R172), returning from one (R176), and the reset event
(70_reset_and_hazards.md R200). -/

namespace Sys2Proof.Machine

/-- What every operation on the machine answers. -/
abbrev Result := Host.Outcome State Fault Refusal

/-- Goes on from a next state; a stop stays a stop. -/
def Result.andThen (r : Result) (f : State → Result) : Result :=
  match r with
  | .next s => f s
  | .fault q => .fault q
  | .refused q => .refused q

/-! ### Byte memories -/

/-- What an index that is not listed reads as. DESIGN CHOICE (93_implementation_defined.md I2: "a
model may hold any bytes there, or zeros"; assumption log 3). -/
def Memory.unlisted : Byte := 0#8

/-- Byte `a` of a memory. -/
def Memory.read : Memory → Nat → Byte
  | [], _ => Memory.unlisted
  | (k, c) :: m, a => if k = a then c else Memory.read m a

/-- `M[a] <- b`, keeping the canonical form. -/
def Memory.write : Memory → Nat → Byte → Memory
  | [], a, b => if b = Memory.unlisted then [] else [(a, b)]
  | (k, c) :: m, a, b =>
    if a < k then (if b = Memory.unlisted then (k, c) :: m else (a, b) :: (k, c) :: m)
    else if a = k then (if b = Memory.unlisted then m else (a, b) :: m)
    else (k, c) :: Memory.write m a b

/-- `for j in 0 .. len(bs)-1: M[a + j] <- bs[j]`. -/
def Memory.writeFrom : Memory → Nat → List Byte → Memory
  | m, _, [] => m
  | m, a, b :: bs => Memory.writeFrom (Memory.write m a b) (a + 1) bs

/-- `M[0..n)` as a sequence (00_scope.md R11). -/
def Memory.bytes (m : Memory) (n : Nat) : List Byte := (List.range n).map (Memory.read m)

/-- The canonical form: strictly rising indices, and no entry equal to what an unlisted index
reads as. -/
abbrev Memory.wf (m : Memory) : Prop :=
  m.Pairwise (fun x y => x.1 < y.1) ∧ ∀ c ∈ m, c.2 ≠ Memory.unlisted

/-- Only bytes that exist are listed: "arrays of `CAP` bytes" (10_state.md R22). -/
abbrev Memory.inCap (m : Memory) : Prop := ∀ c ∈ m, c.1 < Config.CAP

/-- Goes on if byte `j` exists in an array of `CAP` bytes (10_state.md R22, assumption log 7). -/
def ifByteExists (j : Nat) (r : Result) : Result :=
  if j < Config.CAP then r else .fault .indexBeyondCap

/-- Goes on if bytes `0..n-1` exist in an array of `CAP` bytes (10_state.md R22, assumption
log 7). -/
def ifBytesExist (n : Nat) (r : Result) : Result :=
  if n ≤ Config.CAP then r else .fault .indexBeyondCap

/-! ### Faults of the block -/

/-- `raise Fault(c)`: `ERR <- c` and no other write, except that `MODULO_BY_ZERO` also closes the
message (60_exceptions.md R172); the fault log gains `c` (R185). -/
def raiseFault (c : ErrCode) (s : State) : State :=
  { s with
    err := some c
    active := if c = .moduloByZero then false else s.active
    faultLog := s.faultLog ++ [c] }

/-- The fault return: "It only sets `ERR <- 0`" (60_exceptions.md R176); the fault log stays
(R185). -/
def clearFault (s : State) : State := { s with err := none }

/-! ### Reset -/

/-- The reset event: every state element takes its reset value (70_reset_and_hazards.md R200,
10_state.md R42). What is outside the architectural state stays: the fault log, which is monotone
(60_exceptions.md R185, assumption log 6), and the host's own lists. -/
def resetBlock (s : State) : State :=
  { State.reset with faultLog := s.faultLog, inputs := s.inputs, reads := s.reads }

end Sys2Proof.Machine
end

