-- ==== Sys2Proof/Machine/Operands.lean ====
section
/-! DEFINITION. The operand forms of the commands: none (format N), a byte used as is (format B,
30_encoding.md R74) and an index zero-extended and not scaled (format I, R73) that selects a byte of
KB or KEY below its length. -/

namespace Sys2Proof.Machine

/-- The value of an `idx` operand (30_encoding.md R73). -/
def indexValue (idx : BitVec 16) : Nat := idx.toNat

/-- The shared form of `KB_READ` and `KEY_READ`: `if idx >= len then raise Fault(INDEX_RANGE);
RES <- M[idx]` (40_key_derivation.md R108, 42_cipher_engine.md R134). -/
def readIndexed (m : Memory) (len : Nat) (idx : BitVec 16) (s : State) : Result :=
  if len ≤ indexValue idx then .next (raiseFault .indexRange s)
  else ifByteExists (indexValue idx) (.next { s with res := Memory.read m (indexValue idx) })

end Sys2Proof.Machine
end

