-- ==== Sys2Proof/Machine/CipherEngine.lean ====
section
/-! DEFINITION. The cipher engine commands: ENG_NEW, KEY_READ, MSG_ENC, MSG_DEC, MSG_END, XFER, the
modular adder (42_cipher_engine.md R131) and the cyclic key index (R140). -/

namespace Sys2Proof.Machine

/-- `ADD8(d, k) := (d + k) mod 256` (42_cipher_engine.md R131). -/
def add8 (d k : Byte) : Byte := BitVec.ofNat 8 ((d.toNat + k.toNat) % 256)

/-- `SUB8(d, k) := (d - k + 256) mod 256` (42_cipher_engine.md R131). -/
def sub8 (d k : Byte) : Byte := BitVec.ofNat 8 ((d.toNat + 256 - k.toNat) % 256)

/-- The transform that `MODE` selects (10_state.md R30). -/
def transform : Mode → Byte → Byte → Byte
  | .encrypt => add8
  | .decrypt => sub8

/-- `NextIdx(x, L)` (42_cipher_engine.md R140). -/
def nextIdx (x len : Nat) : Nat := if x + 1 = len then 0 else x + 1

/-- `ACTIVE <- 1; MODE <- m; KIDX <- 0; POS <- 0`: a message opens (42_cipher_engine.md R136,
R137). -/
def openMessage (m : Mode) (s : State) : State :=
  { s with active := true, mode := m, kidx := 0, pos := 0#32 }

/-- `ENG_NEW` (42_cipher_engine.md R133). -/
def execEngNew (s : State) : Result :=
  ifBytesExist s.kblen
    (.next { s with
      key := Memory.writeFrom s.key 0 (Memory.bytes s.kb s.kblen)
      klen := s.kblen
      kidx := 0
      pos := 0#32
      active := false })

/-- `KEY_READ idx` (42_cipher_engine.md R134). -/
def execKeyRead (idx : BitVec 16) (s : State) : Result := readIndexed s.key s.klen idx s

/-- `MSG_ENC` (42_cipher_engine.md R136). -/
def execMsgEnc (s : State) : Result := .next (openMessage .encrypt s)

/-- `MSG_DEC` (42_cipher_engine.md R137). -/
def execMsgDec (s : State) : Result := .next (openMessage .decrypt s)

/-- `MSG_END` (42_cipher_engine.md R138). -/
def execMsgEnd (s : State) : Result := .next { s with active := false }

/-- `XFER d` (42_cipher_engine.md R139); the faults in the order of 60_exceptions.md R174, also
with no key bound (assumption log 15). -/
def execXfer (d : Byte) (s : State) : Result :=
  if s.active = false then .next (raiseFault .noMessage s)
  else if s.klen = 0 then .next (raiseFault .moduloByZero s)
  else ifByteExists s.kidx
    (.next { s with
      res := transform s.mode d (Memory.read s.key s.kidx)
      kidx := nextIdx s.kidx s.klen
      pos := s.pos + 1#32 })

end Sys2Proof.Machine
end

