-- ==== Sys2Proof/Machine/Control.lean ====
section
/-! DEFINITION. The control commands NOP and CLR_ERR (43_control.md). -/

namespace Sys2Proof.Machine

/-- `NOP` (43_control.md R160): no state is written. -/
def execNop (s : State) : Result := .next s

/-- `CLR_ERR` (43_control.md R161): `ERR <- 0`, whether or not `ERR` is 0. -/
def execClrErr (s : State) : Result := .next (clearFault s)

end Sys2Proof.Machine
end

