-- ==== Sys2Proof/Machine/KeyDerivation.lean ====
section
/-! DEFINITION. The key derivation commands: KS_CLR, KS_PUSH, KD_PARSE, KB_CLR, KB_PUSH, KB_READ,
and the functions KD_PARSE uses (40_key_derivation.md). -/

namespace Sys2Proof.Machine

/-- A decimal digit: one of the bytes 0x30..0x39 (40_key_derivation.md R100). -/
def isDigit (b : Byte) : Bool := 0x30 ≤ b.toNat && b.toNat ≤ 0x39

/-- `IsDec(s)`: at least one byte, and every byte a digit (40_key_derivation.md R100). -/
def isDec (s : List Byte) : Bool := 1 ≤ s.length && s.all isDigit

/-- `v`, the sum over `j < n` of `(s[j] - 0x30) * 10^(n-1-j)` (40_key_derivation.md R103). -/
def decValue : List Byte → Nat
  | [] => 0
  | b :: bs => (b.toNat - 0x30) * 10 ^ bs.length + decValue bs

/-- The number of bits of the binary representation, `bitlen(0) = 0` (00_scope.md R11). -/
def bitlen (v : Nat) : Nat := if v = 0 then 0 else Nat.log2 v + 1

/-- `m = ceil(bitlen(v) / 8)` (40_key_derivation.md R103). -/
def byteCount (v : Nat) : Nat := (bitlen v + 7) / 8

/-- `out[j] = (v div 256^(m-1-j)) mod 256` for `j < m` (40_key_derivation.md R103). -/
def bigEndian (m v : Nat) : List Byte :=
  (List.range m).map fun j => BitVec.ofNat 8 (v / 256 ^ (m - 1 - j) % 256)

/-- `DecToBytes(s)` (40_key_derivation.md R103): empty for a zero value (90_conflicts.md C1). -/
def decToBytes (s : List Byte) : List Byte := bigEndian (byteCount (decValue s)) (decValue s)

/-- The result of `KD_PARSE` on a key specification (40_key_derivation.md R104). -/
def parseBytes (s : List Byte) : List Byte := if isDec s then decToBytes s else s

/-- `KS_CLR` (40_key_derivation.md R101). -/
def execKsClr (s : State) : Result := .next { s with kslen := 0 }

/-- `KS_PUSH b` (40_key_derivation.md R102). -/
def execKsPush (b : Byte) (s : State) : Result :=
  if s.kslen = Config.CAP then .next (raiseFault .ksOverflow s)
  else ifByteExists s.kslen
    (.next { s with ks := Memory.write s.ks s.kslen b, kslen := s.kslen + 1 })

/-- `KD_PARSE` (40_key_derivation.md R104). -/
def execKdParse (s : State) : Result :=
  let spec := Memory.bytes s.ks s.kslen
  let out := parseBytes spec
  ifBytesExist s.kslen
    (.next { s with
      kdnum := isDec spec
      kb := Memory.writeFrom s.kb 0 out
      kblen := out.length
      vres := .none })

/-- `KB_CLR` (40_key_derivation.md R106). -/
def execKbClr (s : State) : Result := .next { s with kblen := 0, vres := .none }

/-- `KB_PUSH b` (40_key_derivation.md R107). -/
def execKbPush (b : Byte) (s : State) : Result :=
  if s.kblen = Config.CAP then .next (raiseFault .kbOverflow s)
  else ifByteExists s.kblen
    (.next { s with kb := Memory.write s.kb s.kblen b, kblen := s.kblen + 1, vres := .none })

/-- `KB_READ idx` (40_key_derivation.md R108). -/
def execKbRead (idx : BitVec 16) (s : State) : Result := readIndexed s.kb s.kblen idx s

/-! ### The byte-serial algorithm (40_key_derivation.md R103, informative) -/

/-- The inner loop over `acc` from its last byte to its first: the new bytes and the carry out of
the front. -/
def serialStep : List Byte → Nat → List Byte × Nat
  | [], carry => ([], carry)
  | b :: acc, carry =>
    let (rest, c) := serialStep acc carry
    let x := b.toNat * 10 + c
    (BitVec.ofNat 8 (x % 256) :: rest, x / 256)

/-- One digit: the inner loop, and a new front byte if a carry is left. -/
def serialDigit (acc : List Byte) (digit : Byte) : List Byte :=
  let (bytes, carry) := serialStep acc (digit.toNat - 0x30)
  if carry ≠ 0 then BitVec.ofNat 8 carry :: bytes else bytes

/-- `DecToBytesSerial(s)`. -/
def decToBytesSerial (s : List Byte) : List Byte := s.foldl serialDigit []

end Sys2Proof.Machine
end

