-- ==== Sys2Proof/Machine/KeyValidation.lean ====
section
/-! DEFINITION. The key validation command KD_VALIDATE (41_key_validation.md). -/

namespace Sys2Proof.Machine

/-- The verdict on a key length (41_key_validation.md R120). -/
def verdictOf (n : Nat) : Verdict :=
  if n = 0 then .empty else if n > Config.KEY_MAX then .tooLong else .ok

/-- `KD_VALIDATE` (41_key_validation.md R120). -/
def execKdValidate (s : State) : Result := .next { s with vres := verdictOf s.kblen }

end Sys2Proof.Machine
end

