-- ==== Sys2Proof/Machine/Dispatch.lean ====
section
/-! DEFINITION. One arm per command: "A legal word performs the rule named in rule R75's table"
(30_encoding.md R82). -/

namespace Sys2Proof.Machine

def exec (i : Instr) (s : State) : Host.Outcome State Fault Refusal :=
  match i with
  | .nop => Sys2Proof.Machine.execNop s
  | .clrErr => Sys2Proof.Machine.execClrErr s
  | .ksClr => Sys2Proof.Machine.execKsClr s
  | .ksPush b => Sys2Proof.Machine.execKsPush b s
  | .kdParse => Sys2Proof.Machine.execKdParse s
  | .kbClr => Sys2Proof.Machine.execKbClr s
  | .kbPush b => Sys2Proof.Machine.execKbPush b s
  | .kbRead idx => Sys2Proof.Machine.execKbRead idx s
  | .kdValidate => Sys2Proof.Machine.execKdValidate s
  | .engNew => Sys2Proof.Machine.execEngNew s
  | .keyRead idx => Sys2Proof.Machine.execKeyRead idx s
  | .msgEnc => Sys2Proof.Machine.execMsgEnc s
  | .msgDec => Sys2Proof.Machine.execMsgDec s
  | .msgEnd => Sys2Proof.Machine.execMsgEnd s
  | .xfer d => Sys2Proof.Machine.execXfer d s

end Sys2Proof.Machine
end

