-- ==== Sys2Proof/Machine/Flags.lean ====
section
/-! DEFINITION. The status bits and the register values built from the state. The block has no
arithmetic flags (10_state.md R37); its status bits are the fields of `STATUS` (R34, R35). -/

namespace Sys2Proof.Machine

/-- The two bits of `VRES` (10_state.md R26). -/
def Verdict.code : Verdict → BitVec 2
  | .none    => 0#2
  | .ok      => 1#2
  | .empty   => 2#2
  | .tooLong => 3#2

/-- `MODE` as a bit (10_state.md R30). -/
def Mode.bit : Mode → Bool
  | .encrypt => false
  | .decrypt => true

/-- The code of a fault (60_exceptions.md R171). -/
def ErrCode.code : ErrCode → BitVec 8
  | .illegalCommand => 0x01#8
  | .moduloByZero   => 0x02#8
  | .noMessage      => 0x03#8
  | .ksOverflow     => 0x04#8
  | .kbOverflow     => 0x05#8
  | .indexRange     => 0x06#8

/-- The eight bits of `ERR`; 0x00 is NONE (60_exceptions.md R171). -/
def errByte : Option ErrCode → BitVec 8
  | none   => 0x00#8
  | some c => c.code

/-- `STATUS`: VRES at [17:16], ERR at [15:8], FAULT at [3], KDNUM at [2], MODE at [1], ACTIVE at
[0], every other bit 0 (10_state.md R34, R35). -/
def statusWord (s : State) : Word :=
  0#14 ++ s.vres.code ++ errByte s.err ++ 0#4 ++ BitVec.ofBool (s.err.isSome) ++
    BitVec.ofBool s.kdnum ++ BitVec.ofBool s.mode.bit ++ BitVec.ofBool s.active

/-- A length or index in a 16-bit field [15:0]; bits [31:16] read 0 (10_state.md R34). -/
def field16 (n : Nat) : Word := (BitVec.ofNat 16 n).setWidth 32

/-- The register of the window that address bits [5:2] select (10_state.md R34, R35). -/
def regRead (s : State) (sel : BitVec 4) : Word :=
  match sel.toNat with
  | 0 => 0#32
  | 1 => statusWord s
  | 2 => s.res.setWidth 32
  | 3 => field16 s.kslen
  | 4 => field16 s.kblen
  | 5 => field16 s.klen
  | 6 => field16 s.kidx
  | 7 => s.pos
  | 8 => field16 Config.CAP
  | 9 => BitVec.ofNat 32 Config.VERSION
  | _ => 0#32

/-- `BusRead(off)` (10_state.md R35); the block decodes only bits [5:2] (20_memory.md R51). -/
def busRead (s : State) (off : BitVec 6) : Word := regRead s (selectOf off)

end Sys2Proof.Machine
end

