-- ==== Sys2Proof/WellFormed.lean ====
section
/-! DEFINITION. What is well formed. A term of `Instr` always is: its operands have the width of
their encoding fields. What can be ill formed is a literal an assembler reads (30_encoding.md R79)
and a host access (20_memory.md R52, R53). -/

namespace Sys2Proof

/-- A byte literal in 0..255; "a literal out of range is an assembly error, not an illegal word"
(30_encoding.md R79). -/
def byteLiteral? (n : Nat) : Option Byte := if n < 256 then some (BitVec.ofNat 8 n) else none

/-- An index literal in 0..65535 (30_encoding.md R79). -/
def indexLiteral? (n : Nat) : Option (BitVec 16) :=
  if n < 65536 then some (BitVec.ofNat 16 n) else none

namespace Machine

/-- An access the block gives a meaning to: 32 bits wide, at a multiple of 4 (20_memory.md R52,
R53). The reset event is no access. -/
def HostEvent.wellFormed : HostEvent → Bool
  | .read off bits    => bits == 32 && offsetAligned off
  | .write off bits _ => bits == 32 && offsetAligned off
  | .reset            => true

end Machine
end Sys2Proof
end

