-- ==== Sys2Proof/Machine/Bus.lean ====
section
/-! DEFINITION. Serving one host access: `Execute` (30_encoding.md R82), `BusWrite` and `BusRead`
(20_memory.md R52), the refused accesses (R53) and the reset event (70_reset_and_hazards.md R200). -/

namespace Sys2Proof.Machine

/-- The exact word `0x00000001`, the only one that acts while a fault is recorded
(60_exceptions.md R173). -/
def clrErrWord : Word := 0x00000001#32

/-- `Execute(w)` (30_encoding.md R82). -/
def execute (w : Word) (s : State) : Result :=
  if s.err ≠ none then
    if w = clrErrWord then exec .clrErr s else .next s
  else
    match decode w with
    | .illegal _ => .next (raiseFault .illegalCommand s)
    | .command i => exec i s

/-- `BusWrite(off, v)`: a write of `CMD` executes the word, a write of any other register is ignored
(20_memory.md R52). -/
def busWrite (off : BitVec 6) (v : Word) (s : State) : Result :=
  if selectOf off = 0#4 then execute v s else .next s

/-- "A model refuses such an access" (20_memory.md R53): the access has the right width and
alignment, or there is no step. -/
def ifAccessible (off : BitVec 6) (bits : Nat) (r : Result) : Result :=
  if bits ≠ 32 then .refused .accessWidth
  else if offsetAligned off = false then .refused .misalignedOffset
  else r

/-- Serves one event, entirely (20_memory.md R55). -/
def serve (e : HostEvent) (s : State) : Result :=
  match e with
  | .read off bits => ifAccessible off bits (.next { s with reads := s.reads ++ [busRead s off] })
  | .write off bits v => ifAccessible off bits (busWrite off v s)
  | .reset => .next (resetBlock s)

/-- Serves the next event in reception order (20_memory.md R59); with none, the block is idle and
keeps all state (10_state.md R20, 60_exceptions.md R184). -/
def serveNext (s : State) : Result :=
  match s.inputs with
  | [] => .next s
  | e :: rest => serve e { s with inputs := rest }

/-- The host's next access becomes a write of the word `w` to `CMD`. -/
def placeCommand (w : Word) (s : State) : State :=
  { s with inputs := HostEvent.command w :: s.inputs }

end Sys2Proof.Machine
end

