-- ==== Sys2Proof/Machine/Step.lean ====
section
/-! DEFINITION. One step serves one host access (70_reset_and_hazards.md R201: "a model takes one
step per host access"), and how a command word is placed as the next access (assumption log 10). -/

namespace Sys2Proof.Machine

/-- One step of the block. -/
def step (s : State) : Host.Outcome State Fault Refusal := serveNext s

/-- The state in which the host's next access writes the table's word to `CMD`: the block fetches
nothing, it is given its commands (10_state.md R21). -/
def State.withFetchWord (s : State) (nbits w : Nat) : State := placeCommand (tableWord nbits w) s

end Sys2Proof.Machine
end

