-- ==== Sys2Proof/Machine/Ports.lean ====
section
/-! DEFINITION. The signals of the block's slave port and the access they make
(70_reset_and_hazards.md R201). No rule depends on the clock, so one sample stands for one access
that has completed (assumption log 12). -/

namespace Sys2Proof.Machine

/-- The inputs of the port: `rst_n`, `sel`, `wr`, `addr[5:2]`, `wdata[31:0]`. -/
structure PortInputs where
  rstN  : Bool
  sel   : Bool
  wr    : Bool
  addr  : BitVec 4
  wdata : Word
deriving DecidableEq, Repr

/-- The byte offset that `addr[5:2]` names: "register offset / 4". -/
def PortInputs.offset (p : PortInputs) : BitVec 6 := p.addr ++ 0#2

/-- The event a sample makes: reset while `rst_n` is low (70_reset_and_hazards.md R200), else an
access while `sel` is high, a write when `wr` is 1. -/
def PortInputs.event? (p : PortInputs) : Option HostEvent :=
  if p.rstN = false then some .reset
  else if p.sel = false then none
  else if p.wr then some (.write p.offset 32 p.wdata)
  else some (.read p.offset 32)

/-- `rdata[31:0]` of a read access; of any other sample the spec gives no value. -/
def PortInputs.rdata? (p : PortInputs) (s : State) : Option Word :=
  if p.rstN && p.sel && !p.wr then some (regRead s p.addr) else none

end Sys2Proof.Machine
end

