-- ==== Sys2Proof/Machine/SourceOps.lean ====
section
/-! DEFINITION. The source's five operations (00_scope.md R3) as functions on bytes and text, written
from the words the spec quotes and not from the commands: the correspondence rules R110, R121 and
R141 to R145 are stated against them. -/

namespace Sys2Proof.Machine

/-- The UTF-8 encoding of a text, which the host computes (40_key_derivation.md R109,
93_implementation_defined.md G6, assumption log 13). -/
def utf8 (text : List Char) : List Byte :=
  (text.flatMap String.utf8EncodeChar).map UInt8.toBitVec

/-- "minimal big-endian byte sequence representing that integer", zero-length for 0
(40_key_derivation.md R103, 90_conflicts.md C1). -/
def minimalBigEndian (v : Nat) : List Byte := (Nat.digits 256 v).reverse.map (BitVec.ofNat 8)

/-- The "arbitrary-precision non-negative decimal integer" a digit text spells
(40_key_derivation.md R103). -/
def textValue (text : List Char) : Nat := text.foldl (fun v c => 10 * v + (c.toNat - '0'.toNat)) 0

/-- `parse_key`: numeric mode for a text of one or more ASCII digits, text mode otherwise
(40_key_derivation.md, opening contract; R100). -/
def sourceParseKey (text : List Char) : List Byte :=
  if text ≠ [] ∧ text.all Char.isDigit then minimalBigEndian (textValue text) else utf8 text

/-- The reasons of the source's `InvalidKey` (41_key_validation.md). -/
inductive InvalidKey where
  | empty
  | tooLong
deriving DecidableEq, Repr

/-- `validate_key`: `none` is success (41_key_validation.md, opening contract). -/
def sourceValidateKey (k : List Byte) : Option InvalidKey :=
  if k.length = 0 then some .empty else if 1024 < k.length then some .tooLong else none

/-- Key byte `i mod L` (00_scope.md, glossary, "Cyclic key-position"). -/
def keyAt (key : List Byte) (i : Nat) : Byte := key.getD (i % key.length) 0#8

/-- `Engine.encrypt`: `output[i] = (data[i] + key[i mod L]) mod 256`; no result, `ModuloByZero`, for
a zero-length key and non-empty data (42_cipher_engine.md, opening; R139, R145). -/
def sourceEncrypt (key data : List Byte) : Option (List Byte) :=
  if key = [] ∧ data ≠ [] then none else some (data.mapIdx fun i d => d + keyAt key i)

/-- `Engine.decrypt`: `output[i] = (data[i] - key[i mod L] + 256) mod 256`; no result for a
zero-length key and non-empty data (42_cipher_engine.md, opening; R139, R145). -/
def sourceDecrypt (key data : List Byte) : Option (List Byte) :=
  if key = [] ∧ data ≠ [] then none else some (data.mapIdx fun i d => d - keyAt key i)

end Sys2Proof.Machine
end

