-- ==== Sys2Proof/Machine/Assembler.lean ====
section
/-! DEFINITION. The host side of 30_encoding.md section 4: pseudo-instructions (R80) and the
assembler syntax (R79). What the two rules leave open about lines is assumption log 14. -/

namespace Sys2Proof.Machine

/-! ### Pseudo-instructions -/

/-- The pseudo-instructions of 30_encoding.md R80. -/
inductive Pseudo where
  | ksStr (text : List Char)
  | kbBytes (bs : List Byte)
  | loadKey (text : List Char)
  | enc (bs : List Byte)
  | dec (bs : List Byte)
deriving DecidableEq, Repr

/-- The expansion column of 30_encoding.md R80. -/
def Pseudo.expand : Pseudo → List Instr
  | .ksStr text   => .ksClr :: (utf8 text).map .ksPush
  | .kbBytes bs   => .kbClr :: bs.map .kbPush
  | .loadKey text => (.ksClr :: (utf8 text).map .ksPush) ++ [.kdParse, .kdValidate]
  | .enc bs       => .msgEnc :: bs.map .xfer ++ [.msgEnd]
  | .dec bs       => .msgDec :: bs.map .xfer ++ [.msgEnd]

/-- Commands as the host's writes to `CMD` (30_encoding.md R70). -/
def commands (is : List Instr) : List HostEvent := is.map fun i => HostEvent.command (encode i)

/-! ### Lines -/

/-- White space inside a line. -/
def isBlank (c : Char) : Bool := c == ' ' || c == '\t'

/-- The rest of a line after white space. -/
def skipBlank (cs : List Char) : List Char := cs.dropWhile isBlank

/-- Nothing but white space or a comment is left; "`;` starts a comment" (30_encoding.md R79). -/
def lineEnds (cs : List Char) : Bool :=
  match skipBlank cs with
  | [] => true
  | c :: _ => c == ';'

/-- A character of a mnemonic, register name or number. -/
def isTokenChar (c : Char) : Bool := !isBlank c && c != ';' && c != ','

/-- The value of a hexadecimal digit. -/
def hexDigit? (c : Char) : Option Nat :=
  if '0' ≤ c ∧ c ≤ '9' then some (c.toNat - '0'.toNat)
  else if 'a' ≤ c ∧ c ≤ 'f' then some (c.toNat - 'a'.toNat + 10)
  else if 'A' ≤ c ∧ c ≤ 'F' then some (c.toNat - 'A'.toNat + 10)
  else none

/-- The value of a decimal digit. -/
def decDigit? (c : Char) : Option Nat :=
  if '0' ≤ c ∧ c ≤ '9' then some (c.toNat - '0'.toNat) else none

/-- The value of one or more digits in a base. -/
def digits? (base : Nat) (digit? : Char → Option Nat) : List Char → Option Nat
  | [] => none
  | cs => cs.foldl (fun v c => v.bind fun v => (digit? c).map fun d => base * v + d) (some 0)

/-- A decimal (`65`) or hexadecimal (`0x41`) literal (30_encoding.md R79). -/
def number? : List Char → Option Nat
  | '0' :: 'x' :: cs => digits? 16 hexDigit? cs
  | cs => digits? 10 decDigit? cs

/-- A number at the front of a line, and the rest of the line. -/
def numberHere? (cs : List Char) : Option (Nat × List Char) :=
  (number? (cs.takeWhile isTokenChar)).map fun n => (n, cs.dropWhile isTokenChar)

/-- A byte operand: a number in 0..255 or a quoted character U+0020..U+007E (30_encoding.md R79). -/
def byteHere? : List Char → Option (Byte × List Char)
  | '\'' :: c :: '\'' :: rest =>
    if 0x20 ≤ c.toNat ∧ c.toNat ≤ 0x7E then some (BitVec.ofNat 8 c.toNat, rest) else none
  | cs => (numberHere? cs).bind fun p => (byteLiteral? p.1).map fun b => (b, p.2)

/-- A line's one byte operand. -/
def byteOperand? (cs : List Char) : Option Byte :=
  (byteHere? (skipBlank cs)).bind fun p => if lineEnds p.2 then some p.1 else none

/-- A line's one number. -/
def numberOperand? (cs : List Char) : Option Nat :=
  (numberHere? (skipBlank cs)).bind fun p => if lineEnds p.2 then some p.1 else none

/-- Bytes separated by commas to the end of the line, at most `fuel` of them. -/
def bytesHere? : Nat → List Char → Option (List Byte)
  | 0, _ => none
  | fuel + 1, cs =>
    (byteHere? (skipBlank cs)).bind fun p =>
      if lineEnds p.2 then some [p.1]
      else match skipBlank p.2 with
        | ',' :: rest => (bytesHere? fuel rest).map fun bs => p.1 :: bs
        | _ => none

/-- A line's byte list, which may be empty: 30_encoding.md R80 says "n may be 0" of `KB_BYTES`; that
`ENC` and `DEC` with no operand are empty messages is the model's choice. DESIGN CHOICE
(assumption log 14). -/
def bytesOperand? (cs : List Char) : Option (List Byte) :=
  if lineEnds cs then some [] else bytesHere? cs.length cs

/-- A line's quoted text, up to the next `"`. DESIGN CHOICE (assumption log 14): there are no escapes,
and a `;` inside the quotes is text and starts no comment. -/
def textOperand? (cs : List Char) : Option (List Char) :=
  match skipBlank cs with
  | '"' :: rest =>
    match rest.dropWhile (· != '"') with
    | '"' :: after => if lineEnds after then some (rest.takeWhile (· != '"')) else none
    | _ => none
  | _ => none

/-- The register a name stands for (10_state.md R34). -/
def regName? : String → Option RegName
  | "CMD" => some .CMD
  | "STATUS" => some .STATUS
  | "RES" => some .RES
  | "KSLEN" => some .KSLEN
  | "KBLEN" => some .KBLEN
  | "KLEN" => some .KLEN
  | "KIDX" => some .KIDX
  | "POS" => some .POS
  | "CAPR" => some .CAPR
  | "VERSION" => some .VERSION
  | _ => none

/-- The commands of format N by mnemonic (30_encoding.md R75). -/
def formatNCommand? : String → Option Instr
  | "NOP" => some .nop
  | "CLR_ERR" => some .clrErr
  | "KS_CLR" => some .ksClr
  | "KD_PARSE" => some .kdParse
  | "KB_CLR" => some .kbClr
  | "KD_VALIDATE" => some .kdValidate
  | "ENG_NEW" => some .engNew
  | "MSG_ENC" => some .msgEnc
  | "MSG_DEC" => some .msgDec
  | "MSG_END" => some .msgEnd
  | _ => none

/-- The commands of format B by mnemonic (30_encoding.md R75). -/
def formatBCommand? : String → Option (Byte → Instr)
  | "KS_PUSH" => some .ksPush
  | "KB_PUSH" => some .kbPush
  | "XFER" => some .xfer
  | _ => none

/-- The commands of format I by mnemonic (30_encoding.md R75). -/
def formatICommand? : String → Option (BitVec 16 → Instr)
  | "KB_READ" => some .kbRead
  | "KEY_READ" => some .keyRead
  | _ => none

/-- A command line: a mnemonic and the rest of the line (30_encoding.md R79). -/
def command? (m : String) (rest : List Char) : Option Instr :=
  match formatNCommand? m, formatBCommand? m, formatICommand? m with
  | some i, _, _ => if lineEnds rest then some i else none
  | _, some f, _ => (byteOperand? rest).map f
  | _, _, some f => ((numberOperand? rest).bind indexLiteral?).map f
  | _, _, _ => none

/-- A pseudo-instruction line (30_encoding.md R80). -/
def pseudo? (m : String) (rest : List Char) : Option Pseudo :=
  match m with
  | "KS_STR" => (textOperand? rest).map .ksStr
  | "KB_BYTES" => (bytesOperand? rest).map .kbBytes
  | "LOADKEY" => (textOperand? rest).map .loadKey
  | "ENC" => (bytesOperand? rest).map .enc
  | "DEC" => (bytesOperand? rest).map .dec
  | _ => none

/-- `.word <32-bit literal>`, "the only way to write an illegal word" (30_encoding.md R79). The rule
names literal forms for B and I operands only; that this one is decimal or hexadecimal and no quoted
character is the model's choice. DESIGN CHOICE (assumption log 14). -/
def rawWord? (rest : List Char) : Option Word :=
  (numberOperand? rest).bind fun n => if n < 2 ^ 32 then some (BitVec.ofNat 32 n) else none

/-- `RD <register>` (30_encoding.md R79). -/
def readLine? (rest : List Char) : Option RegName :=
  let cs := skipBlank rest
  if lineEnds (cs.dropWhile isTokenChar) then regName? (String.ofList (cs.takeWhile isTokenChar))
  else none

/-- The host accesses of one line; `none` is an assembly error (30_encoding.md R79). -/
def assembleLine (line : List Char) : Option (List HostEvent) :=
  let cs := skipBlank line
  if lineEnds cs then some []
  else
    let m := String.ofList (cs.takeWhile isTokenChar)
    let rest := cs.dropWhile isTokenChar
    match m with
    | ".word" => (rawWord? rest).map fun w => [HostEvent.command w]
    | "RD" => (readLine? rest).map fun r => [HostEvent.rd r]
    | _ =>
      match pseudo? m rest with
      | some p => some (commands p.expand)
      | none => (command? m rest).map fun i => commands [i]

/-- The host accesses of a program, one line after another (95_test_vectors.md Part 3). -/
def assemble : List (List Char) → Option (List HostEvent)
  | [] => some []
  | l :: ls => (assembleLine l).bind fun es => (assemble ls).map fun rest => es ++ rest

end Sys2Proof.Machine
end

