-- ==== Sys2Proof/Safety.lean ====
section
/-! DEFINITION. The terms claims use: the invariants of 10_state.md R39, the fault history of
60_exceptions.md R185, runs of host accesses (70_reset_and_hazards.md R211), the causes of faults
(R171), and what a state shows beyond its hidden bytes (10_state.md R38). -/

namespace Sys2Proof.Machine

/-! ### Invariants -/

/-- What holds in every reachable state. -/
structure State.Inv (s : State) : Prop where
  /-- `KSLEN <= CAP` (10_state.md R39). -/
  kslen_le : s.kslen ≤ Config.CAP
  /-- `KBLEN <= CAP` (10_state.md R39). -/
  kblen_le : s.kblen ≤ Config.CAP
  /-- `L <= CAP` (10_state.md R39). -/
  klen_le : s.klen ≤ Config.CAP
  /-- `L = 0` implies `KIDX = 0` (10_state.md R39). -/
  kidx_zero : s.klen = 0 → s.kidx = 0
  /-- `L > 0` implies `KIDX < L` (10_state.md R39). -/
  kidx_lt : 0 < s.klen → s.kidx < s.klen
  /-- After the k-th successful `XFER` of a message `KIDX = k mod L` (10_state.md R28), and `POS` is
  that `k` modulo 2^32 (R31). -/
  position : ∃ k : Nat, s.pos = BitVec.ofNat 32 k ∧ s.kidx = k % s.klen
  /-- "a verdict always describes the current `KB`" (10_state.md R26). -/
  verdict_current : s.vres = .none ∨ s.vres = verdictOf s.kblen
  /-- The recorded code is the last fault of the log (60_exceptions.md R172, R185). -/
  err_logged : ∀ c, s.err = some c → s.faultLog.getLast? = some c
  /-- The byte memories keep their canonical form. -/
  ks_wf : Memory.wf s.ks
  kb_wf : Memory.wf s.kb
  key_wf : Memory.wf s.key
  /-- The byte memories are arrays of `CAP` bytes (10_state.md R22). -/
  ks_inCap : Memory.inCap s.ks
  kb_inCap : Memory.inCap s.kb
  key_inCap : Memory.inCap s.key

/-- The states a run can reach: from reset the host issues accesses and the block serves them. -/
inductive State.Reachable : State → Prop where
  | reset : State.Reachable State.reset
  | host {s : State} (es : List HostEvent) :
      State.Reachable s → State.Reachable { s with inputs := s.inputs ++ es }
  | step {s t : State} : State.Reachable s → step s = .next t → State.Reachable t

/-- "no fault in the log", the premise of a claim of correct operation (60_exceptions.md R185). -/
def State.faultFree (s : State) : Prop := s.faultLog = []

/-! ### Key sequences -/

/-- `KS[0..KSLEN)` (10_state.md R23). -/
def State.specBytes (s : State) : List Byte := Memory.bytes s.ks s.kslen

/-- `KB[0..KBLEN)` (10_state.md R24). -/
def State.keyBytes (s : State) : List Byte := Memory.bytes s.kb s.kblen

/-- `KEY[0..L)` (10_state.md R27). -/
def State.engineKey (s : State) : List Byte := Memory.bytes s.key s.klen

/-! ### Runs -/

/-- `k` steps, stopping at the first stop: `Host.Core.run` at this machine's own types. -/
def steps : Nat → State → Result
  | 0, s => .next s
  | k + 1, s => Result.andThen (step s) (steps k)

/-- A run: the block serves the accesses of a list and nothing is left of it
(70_reset_and_hazards.md R211). -/
def runEvents (es : List HostEvent) (s : State) : Result :=
  steps es.length { s with inputs := es }

/-- The command that opens a message (42_cipher_engine.md R135). -/
def openingOf : Mode → Instr
  | .encrypt => .msgEnc
  | .decrypt => .msgDec

/-- The accesses of one data byte: the `XFER` and the host's read of `RES` after it
(42_cipher_engine.md R135). -/
def transferAndRead (d : Byte) : List HostEvent :=
  [HostEvent.command (encode (.xfer d)), HostEvent.rd .RES]

/-- One `encrypt` or `decrypt` call (42_cipher_engine.md R135, 70_reset_and_hazards.md R202
step 4). -/
def messageEvents (m : Mode) (data : List Byte) : List HostEvent :=
  HostEvent.command (encode (openingOf m)) ::
    (data.flatMap transferAndRead ++ [HostEvent.command (encode .msgEnd)])

/-- The values the reads of a list of accesses return in one state, a value for each read in order and
none for any other access (20_memory.md R52). -/
def valuesRead (s : State) (es : List HostEvent) : List Word :=
  es.filterMap fun e =>
    match e with
    | .read off _ => some (busRead s off)
    | .write _ _ _ => none
    | .reset => none

/-- What a read of `RES` returns for a byte: zero-extended (10_state.md R35). -/
def resWord (b : Byte) : Word := b.setWidth 32

/-- The source operation of a mode (00_scope.md R3). -/
def sourceTransform : Mode → List Byte → List Byte → Option (List Byte)
  | .encrypt => sourceEncrypt
  | .decrypt => sourceDecrypt

/-- A verdict says what `validate_key` says of a byte sequence: `VRES` is 1 exactly for success, 2
exactly for reason "empty", 3 exactly for reason "too_long" (41_key_validation.md R121). -/
def verdictAgrees (v : Verdict) (k : List Byte) : Prop :=
  (v.code = 1#2 ↔ sourceValidateKey k = none) ∧
  (v.code = 2#2 ↔ sourceValidateKey k = some .empty) ∧
  (v.code = 3#2 ↔ sourceValidateKey k = some .tooLong)

/-! ### Causes of faults -/

/-- The fault a command raises in a state, by the cause column of 60_exceptions.md R171 and the
order of R174. -/
def faultOf : Instr → State → Option ErrCode
  | .ksPush _, s => if s.kslen = Config.CAP then some .ksOverflow else none
  | .kbPush _, s => if s.kblen = Config.CAP then some .kbOverflow else none
  | .kbRead idx, s => if s.kblen ≤ idx.toNat then some .indexRange else none
  | .keyRead idx, s => if s.klen ≤ idx.toNat then some .indexRange else none
  | .xfer _, s =>
    if s.active = false then some .noMessage
    else if s.klen = 0 then some .moduloByZero else none
  | .nop, _ | .clrErr, _ | .ksClr, _ | .kdParse, _ | .kbClr, _ | .kdValidate, _ | .engNew, _
  | .msgEnc, _ | .msgDec, _ | .msgEnd, _ => none

/-- The commands that 20_memory.md R56 calls idempotent. -/
def idempotentCommand : Instr → Bool
  | .ksPush _ | .kbPush _ | .xfer _ => false
  | .nop | .clrErr | .ksClr | .kbClr | .kdParse | .kdValidate | .engNew | .msgEnc | .msgDec
  | .msgEnd | .kbRead _ | .keyRead _ => true

/-! ### Hidden bytes -/

/-- The bytes of two memories below a length agree. -/
def sameBelow (n : Nat) (m m' : Memory) : Prop := ∀ j, j < n → Memory.read m j = Memory.read m' j

/-- Two states that differ at most in bytes at or beyond the lengths (10_state.md R38). -/
structure SameVisible (s t : State) : Prop where
  kslen : s.kslen = t.kslen
  kblen : s.kblen = t.kblen
  klen : s.klen = t.klen
  kdnum : s.kdnum = t.kdnum
  vres : s.vres = t.vres
  kidx : s.kidx = t.kidx
  active : s.active = t.active
  mode : s.mode = t.mode
  pos : s.pos = t.pos
  res : s.res = t.res
  err : s.err = t.err
  faultLog : s.faultLog = t.faultLog
  inputs : s.inputs = t.inputs
  reads : s.reads = t.reads
  ks : sameBelow s.kslen s.ks t.ks
  kb : sameBelow s.kblen s.kb t.kb
  key : sameBelow s.klen s.key t.key

/-- Two answers of a step that show the same. -/
def sameAnswer : Result → Result → Prop
  | .next s, .next t => SameVisible s t
  | .fault f, .fault g => f = g
  | .refused r, .refused q => r = q
  | _, _ => False

end Sys2Proof.Machine
end

