-- ==== Sys2Proof/Certificates/Slice0/Obligations.lean ====
section
/-! DEFINITION. The statements for the provers: the spec's numbered rules as claims about the
model. How a statement names a host access (the lists `inputs` and `reads` of the state) is the
model's own way of writing it down (assumption logs 4 and 5). -/

open Sys2Proof Sys2Proof.Machine

/-! ### Reset and invariants -/

/-- 10_state.md R42: after reset every state element takes its reset value. The contents of the byte
memories are unspecified, so nothing is said of them. -/
def Obligations.ResetHoldsResetValues : Prop :=
  State.reset.kslen = 0 ∧ State.reset.kblen = 0 ∧ State.reset.kdnum = false ∧
  State.reset.vres.code = 0#2 ∧ State.reset.klen = 0 ∧ State.reset.kidx = 0 ∧
  State.reset.active = false ∧ State.reset.mode.bit = false ∧ State.reset.pos = 0#32 ∧
  State.reset.res = 0#8 ∧ errByte State.reset.err = 0x00#8

/-- 70_reset_and_hazards.md R200 with 10_state.md R42: a reset gives every state element its reset
value, from any state. That it keeps the fault log is the model's choice (assumption log 6), that it
lands between two accesses too (log 9). -/
def Obligations.ResetEventRestoresResetValues : Prop :=
  ∀ (s : State) (rest : List HostEvent), s.inputs = .reset :: rest →
    ∃ t, step s = .next t ∧
      t.kslen = 0 ∧ t.kblen = 0 ∧ t.kdnum = false ∧ t.vres.code = 0#2 ∧ t.klen = 0 ∧ t.kidx = 0 ∧
      t.active = false ∧ t.mode.bit = false ∧ t.pos = 0#32 ∧ t.res = 0#8 ∧ errByte t.err = 0x00#8 ∧
      t.faultLog = s.faultLog ∧ t.inputs = rest ∧ t.reads = s.reads

/-- The invariant of 10_state.md R39 holds at reset. That the byte memories list nothing there is the
model's choice (assumption log 3). -/
def Obligations.ResetMeetsInvariant : Prop := State.reset.Inv

/-- 10_state.md R39: "Each command keeps them", and so does every other access. -/
def Obligations.StepKeepsInvariant : Prop :=
  ∀ s t : State, s.Inv → step s = .next t → t.Inv

/-- 10_state.md R39, clause by clause, in every reachable state. -/
def Obligations.ReachableStatesMeetTheInvariants : Prop :=
  ∀ s : State, s.Reachable →
    s.kslen ≤ Config.CAP ∧ s.kblen ≤ Config.CAP ∧ s.klen ≤ Config.CAP ∧
    (s.klen = 0 → s.kidx = 0) ∧ (0 < s.klen → s.kidx < s.klen) ∧
    (errByte s.err).toNat ≤ 0x06 ∧ s.vres.code.toNat ≤ 3

/-- 20_memory.md R55, 93_implementation_defined.md I10: every access that has a meaning completes
within itself. The premise is the invariant of R39. -/
def Obligations.WellFormedAccessCompletes : Prop :=
  ∀ (s : State) (e : HostEvent) (rest : List HostEvent),
    s.Inv → s.inputs = e :: rest → e.wellFormed = true →
    ∃ t, step s = .next t ∧ t.inputs = rest

/-- 20_memory.md R53: an access narrower or wider than 32 bits, or at an offset that is not a
multiple of 4, is refused. -/
def Obligations.IllFormedAccessIsRefused : Prop :=
  ∀ (s : State) (off : BitVec 6) (bits : Nat) (v : Word) (rest : List HostEvent),
    (bits ≠ 32 ∨ off.toNat % 4 ≠ 0) →
    (s.inputs = .read off bits :: rest ∨ s.inputs = .write off bits v :: rest) →
    ∃ r, step s = .refused r ∧ (r = .accessWidth ∨ r = .misalignedOffset)

/-! ### Encoding -/

/-- Decoding the word of a command gives the command back, for every operand value. Every term of
`Instr` is well formed. -/
def Obligations.DecodeOfEncodeIsTheCommand : Prop :=
  ∀ i : Instr, decode (encode i) = .command i

/-- 30_encoding.md R77: each word has one meaning, so a legal word is the word of its command. -/
def Obligations.LegalWordIsTheWordOfItsCommand : Prop :=
  ∀ (w : Word) (i : Instr), decode w = .command i → w = encode i

/-- 30_encoding.md R75: a row's command is selected by exactly the words with
`(w & mask) == match`. -/
def Obligations.DecodeFollowsTheOpcodeMap : Prop :=
  (∀ (w : Word) (i : Instr), decode w = .command i →
    rowOf i ∈ opcodeTable ∧ w &&& (rowOf i).mask = (rowOf i).pattern) ∧
  (∀ (w : Word) (r : OpcodeRow), r ∈ opcodeTable → w &&& r.mask = r.pattern →
    ∃ i, decode w = .command i ∧ rowOf i = r)

/-- 30_encoding.md R76: which words are illegal, what writing one does with no fault recorded, and
that it is dropped while one is. -/
def Obligations.IllegalWordsAreThoseOfTheRule : Prop :=
  (∀ w : Word, decode w = .illegal .unassignedOpcode ↔
    (0x02 ≤ w.toNat % 256 ∧ w.toNat % 256 ≤ 0x0F) ∨ (0x13 ≤ w.toNat % 256 ∧ w.toNat % 256 ≤ 0x17) ∨
    (0x1C ≤ w.toNat % 256 ∧ w.toNat % 256 ≤ 0x1F) ∨ (0x22 ≤ w.toNat % 256 ∧ w.toNat % 256 ≤ 0x2F) ∨
    0x34 ≤ w.toNat % 256) ∧
  (∀ w : Word, decode w = .illegal .reservedBits ↔
    (w.toNat % 256 ∈ [0x00, 0x01, 0x10, 0x12, 0x18, 0x1B, 0x20, 0x30, 0x31, 0x32] ∧
      w.toNat / 2 ^ 8 ≠ 0) ∨
    (w.toNat % 256 ∈ [0x11, 0x19, 0x33] ∧ w.toNat / 2 ^ 16 ≠ 0) ∨
    (w.toNat % 256 ∈ [0x1A, 0x21] ∧ w.toNat / 2 ^ 24 ≠ 0)) ∧
  (∀ (s : State) (w : Word) (why : IllegalReason) (rest : List HostEvent),
    decode w = .illegal why → s.inputs = HostEvent.command w :: rest →
    (s.err = none → step s = .next { s with
      inputs := rest, err := some .illegalCommand, faultLog := s.faultLog ++ [.illegalCommand] }) ∧
    (s.err ≠ none → step s = .next { s with inputs := rest }))

/-- Words written out from the formats of 30_encoding.md R72 to R74, one or more of every family. -/
def Obligations.WrittenWordsDecodeToTheirCommands : Prop :=
  decode 0x00000000#32 = .command .nop ∧
  decode 0x00000001#32 = .command .clrErr ∧
  decode 0x00003211#32 = .command (.ksPush 0x32#8) ∧
  decode 0x00000012#32 = .command .kdParse ∧
  decode 0x00004119#32 = .command (.kbPush 0x41#8) ∧
  decode 0x00FFFF1A#32 = .command (.kbRead 0xFFFF#16) ∧
  decode 0x0000001B#32 = .command .kdValidate ∧
  decode 0x00000020#32 = .command .engNew ∧
  decode 0x00000121#32 = .command (.keyRead 1#16) ∧
  decode 0x00000031#32 = .command .msgDec ∧
  decode 0x0000FF33#32 = .command (.xfer 0xFF#8) ∧
  decode 0x00010011#32 = .illegal .reservedBits ∧
  decode 0x000000FF#32 = .illegal .unassignedOpcode

/-! ### The host interface -/

/-- 30_encoding.md R82: a write of a word to `CMD` performs `Execute` as one step: with no fault
recorded a legal word performs its command and an illegal word faults; with a fault recorded only the
exact word `0x00000001` has an effect. All the step adds is that the access is no longer pending. -/
def Obligations.StepRunsTheDecodedCommand : Prop :=
  ∀ (s : State) (w : Word) (rest : List HostEvent), s.inputs = HostEvent.command w :: rest →
    (∀ i : Instr, s.err = none → decode w = .command i →
      step s = exec i { s with inputs := rest }) ∧
    (∀ why : IllegalReason, s.err = none → decode w = .illegal why →
      step s = .next (raiseFault .illegalCommand { s with inputs := rest })) ∧
    (s.err ≠ none → step s = .next { s with
      inputs := rest, err := if w = 0x00000001#32 then none else s.err })

/-- 60_exceptions.md R173: while a fault is recorded the exact word `0x00000001` clears it, every
other word is dropped, and host reads still work. -/
def Obligations.DropModeDropsEveryOtherWord : Prop :=
  ∀ (s : State) (w : Word) (off : BitVec 6) (rest : List HostEvent), s.err ≠ none →
    (s.inputs = HostEvent.command w :: rest →
      (w = 0x00000001#32 → step s = .next { s with inputs := rest, err := none }) ∧
      (w ≠ 0x00000001#32 → step s = .next { s with inputs := rest })) ∧
    (off.toNat % 4 = 0 → s.inputs = .read off 32 :: rest →
      step s = .next { s with inputs := rest, reads := s.reads ++ [busRead s off] })

/-- 10_state.md R35: what a read of each register returns, and that a read has no side effect. The
premise is the invariant of R39 (the lengths fit their fields). -/
def Obligations.RegisterReadsReturnTheirFields : Prop :=
  ∀ s : State, s.Inv →
    (busRead s 0x04#6).toNat = s.vres.code.toNat * 2 ^ 16 + (errByte s.err).toNat * 2 ^ 8 +
      (if errByte s.err ≠ 0#8 then 8 else 0) + s.kdnum.toNat * 4 + s.mode.bit.toNat * 2 +
      s.active.toNat ∧
    busRead s 0x00#6 = 0#32 ∧
    (busRead s 0x08#6).toNat = s.res.toNat ∧
    (busRead s 0x0C#6).toNat = s.kslen ∧
    (busRead s 0x10#6).toNat = s.kblen ∧
    (busRead s 0x14#6).toNat = s.klen ∧
    (busRead s 0x18#6).toNat = s.kidx ∧
    busRead s 0x1C#6 = s.pos ∧
    (busRead s 0x20#6).toNat = Config.CAP ∧
    busRead s 0x24#6 = 0x00000001#32 ∧
    (∀ off : BitVec 6, off.toNat % 4 = 0 → 0x28 ≤ off.toNat → busRead s off = 0#32) ∧
    (∀ (off : BitVec 6) (rest : List HostEvent), off.toNat % 4 = 0 → s.inputs = .read off 32 :: rest →
      step s = .next { s with inputs := rest, reads := s.reads ++ [busRead s off] })

/-- 20_memory.md R52: a read returns the register's value, a write of `CMD` executes the word, a write
of any other offset is ignored. -/
def Obligations.HostAccessesActAsTheRuleSays : Prop :=
  ∀ (s : State) (off : BitVec 6) (v : Word) (rest : List HostEvent), off.toNat % 4 = 0 →
    (s.inputs = .read off 32 :: rest →
      step s = .next { s with inputs := rest, reads := s.reads ++ [busRead s off] }) ∧
    (s.inputs = .write off 32 v :: rest → off.toNat = 0x00 →
      step s = execute v { s with inputs := rest }) ∧
    (s.inputs = .write off 32 v :: rest → off.toNat ≠ 0x00 → step s = .next { s with inputs := rest })

/-- 20_memory.md R51: `ASCE_BASE` is 64-byte aligned, so the offset is the low six bits of the
address, and the register is selected by address bits [5:2] alone. That accesses carry the offset is the model's reading
(assumption log 2). -/
def Obligations.AddressBitsSelectTheRegister : Prop :=
  Config.ASCE_BASE % 64 = 0 ∧
  ∀ off : BitVec 6, busAddress off % 64 = off.toNat ∧
    (selectOf off).toNat = busAddress off / 4 % 16

/-- 70_reset_and_hazards.md R201: a sample of the slave port makes the access its signals say; the
value on `rdata` is what the access returns. That a sample is one completed access is the model's
reading (assumption log 12). -/
def Obligations.PortSampleMakesItsAccess : Prop :=
  ∀ (s : State) (p : PortInputs) (rest : List HostEvent), p.rstN = true → p.sel = true →
    (p.wr = false → s.inputs = p.event?.toList ++ rest →
      ∃ v, p.rdata? s = some v ∧
        step s = .next { s with inputs := rest, reads := s.reads ++ [v] }) ∧
    (p.wr = true → s.inputs = p.event?.toList ++ rest →
      step s = if p.addr = 0#4 then execute p.wdata { s with inputs := rest }
        else .next { s with inputs := rest })

/-- 20_memory.md R59: accesses take effect one after another in reception order, so a run over two
lists is the run over the first and then over the second. -/
def Obligations.RunsComposeInReceptionOrder : Prop :=
  ∀ (es fs : List HostEvent) (s : State),
    runEvents (es ++ fs) s = Result.andThen (runEvents es s) (runEvents fs)

/-! ### Faults -/

/-- 60_exceptions.md R171 and R174: from a state that meets the invariant and records no fault, a
command completes, and the code recorded is the one of its cause, `NO_MESSAGE` before
`MODULO_BY_ZERO`. -/
def Obligations.FaultsAreRaisedExactlyForTheirCauses : Prop :=
  ∀ (i : Instr) (s : State), s.Inv → s.err = none →
    ∃ t, exec i s = .next t ∧ t.err = (match i with
      | .ksPush _ => if s.kslen = Config.CAP then some .ksOverflow else none
      | .kbPush _ => if s.kblen = Config.CAP then some .kbOverflow else none
      | .kbRead idx => if s.kblen ≤ idx.toNat then some .indexRange else none
      | .keyRead idx => if s.klen ≤ idx.toNat then some .indexRange else none
      | .xfer _ => if s.active = false then some .noMessage
        else if s.klen = 0 then some .moduloByZero else none
      | .nop | .clrErr | .ksClr | .kdParse | .kbClr | .kdValidate | .engNew | .msgEnc | .msgDec
      | .msgEnd => none)

/-- 60_exceptions.md R175: after a fault the state is the state before the command, except for `ERR`
and, for `MODULO_BY_ZERO`, `ACTIVE` (and the fault log of R185, outside the architectural state). -/
def Obligations.FaultsArePrecise : Prop :=
  (∀ (i : Instr) (s : State) (c : ErrCode), faultOf i s = some c →
    exec i s = .next { s with
      err := some c
      active := if c = .moduloByZero then false else s.active
      faultLog := s.faultLog ++ [c] }) ∧
  (∀ (s : State) (w : Word) (why : IllegalReason), s.err = none → decode w = .illegal why →
    execute w s = .next { s with
      err := some .illegalCommand
      faultLog := s.faultLog ++ [.illegalCommand] })

/-- 60_exceptions.md R173 and R176, 10_state.md R33: a recorded fault stays recorded until the exact
word `CLR_ERR` or a reset, whatever access is served. -/
def Obligations.RecordedFaultStaysUntilCleared : Prop :=
  ∀ (s t : State) (c : ErrCode), step s = .next t → s.err = some c →
    t.err = some c ∨
    (t.err = none ∧ ∃ rest, s.inputs = HostEvent.command 0x00000001#32 :: rest ∨
      s.inputs = .reset :: rest)

/-- 60_exceptions.md R185: the fault log is monotone; every fault taken appends its code and nothing
else changes it. That a reset does not change it either is the model's reading (assumption log 6). -/
def Obligations.FaultLogRecordsEveryFault : Prop :=
  ∀ s t : State, step s = .next t →
    (t.faultLog = s.faultLog ∧ (t.err = s.err ∨ t.err = none)) ∨
    ∃ c, s.err = none ∧ t.err = some c ∧ t.faultLog = s.faultLog ++ [c]

/-- 70_reset_and_hazards.md R204: once a fault is recorded, a run with no `CLR_ERR` word and no reset
changes nothing, and its reads return, one value each and in order, what the faulted state shows at
their offsets. -/
def Obligations.RunAfterFaultChangesNothing : Prop :=
  ∀ (s : State) (es : List HostEvent), s.err ≠ none →
    (∀ e ∈ es, e.wellFormed = true ∧ e ≠ .reset ∧ e ≠ HostEvent.command 0x00000001#32) →
    runEvents es s = .next { s with inputs := [], reads := s.reads ++ valuesRead s es }

/-! ### Control commands -/

/-- 43_control.md R160 and R161: `NOP` writes no state, `CLR_ERR` writes `ERR <- 0` and nothing else
and acts whether or not a fault is recorded, each has exactly one word, and a word of either opcode
with a reserved bit set faults with no fault recorded and is dropped with one. -/
def Obligations.ControlCommandsDoWhatTheySay : Prop :=
  (∀ s : State, exec .nop s = .next s ∧ exec .clrErr s = .next { s with err := none }) ∧
  (∀ w : Word, decode w = .command .nop ↔ w = 0x00000000#32) ∧
  (∀ w : Word, decode w = .command .clrErr ↔ w = 0x00000001#32) ∧
  (∀ s : State, execute 0x00000000#32 s = .next s ∧
    execute 0x00000001#32 s = .next { s with err := none }) ∧
  (∀ (s : State) (w : Word), w.toNat % 256 ≤ 0x01 → w.toNat / 256 ≠ 0 →
    (s.err = none → execute w s = .next { s with
      err := some .illegalCommand, faultLog := s.faultLog ++ [.illegalCommand] }) ∧
    (s.err ≠ none → execute w s = .next s))

/-! ### Key derivation -/

/-- 40_key_derivation.md R101. -/
def Obligations.KsClrEmptiesTheSpecification : Prop :=
  encode .ksClr = 0x00000010#32 ∧
  ∀ s : State, exec .ksClr s = .next { s with kslen := 0 }

/-- 40_key_derivation.md R102: `KS_PUSH` appends one byte and changes no other byte and no other
register; at `CAP` it faults `KS_OVERFLOW` with no other change. -/
def Obligations.KsPushAppendsOneByte : Prop :=
  ∀ (s : State) (b : Byte), s.Inv →
    encode (.ksPush b) = 0x00000011#32 ||| (b.setWidth 32 <<< 8) ∧
    (s.kslen < Config.CAP → ∃ m,
      exec (.ksPush b) s = .next { s with ks := m, kslen := s.kslen + 1 } ∧
      Memory.read m s.kslen = b ∧
      ∀ a, a ≠ s.kslen → Memory.read m a = Memory.read s.ks a) ∧
    (s.kslen = Config.CAP → exec (.ksPush b) s = .next { s with
      err := some .ksOverflow, faultLog := s.faultLog ++ [.ksOverflow] })

/-- 40_key_derivation.md R104: `KD_PARSE` writes the numeric or text result of the specification to
`KB[0..KBLEN)`, `KDNUM` and `VRES`, and nothing else; bytes of `KB` from `len(out)` on stay. -/
def Obligations.KdParseWritesTheParsedKey : Prop :=
  encode .kdParse = 0x00000012#32 ∧
  ∀ s : State, s.Inv → ∃ m n,
    exec .kdParse s = .next { s with
      kb := m, kblen := n, kdnum := isDec s.specBytes, vres := .none } ∧
    Memory.bytes m n =
      (if isDec s.specBytes = true then decToBytes s.specBytes else s.specBytes) ∧
    ∀ a, n ≤ a → Memory.read m a = Memory.read s.kb a

/-- 40_key_derivation.md R100: the digits are the bytes 0x30..0x39, and there is at least one. -/
def Obligations.IsDecHoldsExactlyOfDigitStrings : Prop :=
  ∀ s : List Byte, isDec s = true ↔
    1 ≤ s.length ∧ ∀ (j : Nat) (h : j < s.length), 0x30 ≤ s[j].toNat ∧ s[j].toNat ≤ 0x39

/-- 40_key_derivation.md R103: with `v` the value the digits spell, `DecToBytes` has
`ceil(bitlen(v)/8)` bytes, byte `j` is `(v div 256^(m-1-j)) mod 256`, the bytes spell `v` big-endian,
there is no leading zero byte, and a zero value gives no byte. -/
def Obligations.DecToBytesIsTheMinimalBigEndianValue : Prop :=
  ∀ s : List Byte, isDec s = true →
    ∃ v m : Nat,
      v = ∑ j : Fin s.length, (s[j].toNat - 0x30) * 10 ^ (s.length - 1 - j) ∧
      m = (Nat.size v + 7) / 8 ∧ (decToBytes s).length = m ∧
      (∀ (j : Nat) (h : j < (decToBytes s).length),
        (decToBytes s)[j].toNat = v / 256 ^ (m - 1 - j) % 256) ∧
      Nat.ofDigits 256 ((decToBytes s).reverse.map BitVec.toNat) = v ∧
      (0 < v → ∃ b bs, decToBytes s = b :: bs ∧ b ≠ 0#8) ∧
      (v = 0 → decToBytes s = [])

/-- 40_key_derivation.md R105: the output never has more bytes than the specification, in text mode it
has as many, so `KD_PARSE` never overflows `KB` and needs no fault. -/
def Obligations.ParsedKeyIsNoLongerThanTheSpecification : Prop :=
  (∀ s : List Byte, isDec s = true → (decToBytes s).length ≤ s.length) ∧
  (∀ s : List Byte, isDec s = false → (parseBytes s).length = s.length) ∧
  (∀ s t : State, exec .kdParse s = .next t → t.kblen ≤ s.kslen) ∧
  (∀ s : State, s.Inv → ∃ t, exec .kdParse s = .next t ∧ t.err = s.err ∧ t.kblen ≤ Config.CAP)

/-- 40_key_derivation.md R103: the byte-serial algorithm "computes the same result". -/
def Obligations.SerialAlgorithmComputesDecToBytes : Prop :=
  ∀ s : List Byte, isDec s = true → decToBytesSerial s = decToBytes s

/-- 40_key_derivation.md R110: loading the UTF-8 bytes of a text and parsing leaves `parse_key` of the
text in `KB`. The UTF-8 encoding is the host's and from outside the spec (assumption log 13). -/
def Obligations.ParseCommandsComputeParseKey : Prop :=
  ∀ (s : State) (text : List Char), s.Inv → s.err = none → (utf8 text).length ≤ Config.CAP →
    ∃ t, runEvents (commands ((Pseudo.ksStr text).expand ++ [.kdParse])) s = .next t ∧
      t.err = none ∧ t.keyBytes = sourceParseKey text ∧
      (t.kdnum = true ↔ text ≠ [] ∧ text.all Char.isDigit = true)

/-- 40_key_derivation.md R106. -/
def Obligations.KbClrEmptiesTheKeyBytes : Prop :=
  encode .kbClr = 0x00000018#32 ∧
  ∀ s : State, exec .kbClr s = .next { s with kblen := 0, vres := .none }

/-- 40_key_derivation.md R107: `KB_PUSH` appends one byte, sets `VRES` to NONE, and changes nothing
else; at `CAP` it faults `KB_OVERFLOW` with no other change. -/
def Obligations.KbPushAppendsOneByte : Prop :=
  ∀ (s : State) (b : Byte), s.Inv →
    encode (.kbPush b) = 0x00000019#32 ||| (b.setWidth 32 <<< 8) ∧
    (s.kblen < Config.CAP → ∃ m,
      exec (.kbPush b) s = .next { s with kb := m, kblen := s.kblen + 1, vres := .none } ∧
      Memory.read m s.kblen = b ∧
      ∀ a, a ≠ s.kblen → Memory.read m a = Memory.read s.kb a) ∧
    (s.kblen = Config.CAP → exec (.kbPush b) s = .next { s with
      err := some .kbOverflow, faultLog := s.faultLog ++ [.kbOverflow] })

/-- 40_key_derivation.md R108: `KB_READ` reads a byte below `KBLEN` into `RES` and changes nothing
else; any other index faults `INDEX_RANGE`. -/
def Obligations.KbReadReadsOneByteIntoRes : Prop :=
  ∀ (s : State) (idx : BitVec 16), s.Inv →
    encode (.kbRead idx) = 0x0000001A#32 ||| (idx.setWidth 32 <<< 8) ∧
    (∀ h : idx.toNat < s.keyBytes.length,
      exec (.kbRead idx) s = .next { s with res := s.keyBytes[idx.toNat] }) ∧
    (s.kblen ≤ idx.toNat → exec (.kbRead idx) s = .next { s with
      err := some .indexRange, faultLog := s.faultLog ++ [.indexRange] })

/-! ### Key validation -/

/-- 41_key_validation.md R120. -/
def Obligations.KdValidateRecordsTheLengthVerdict : Prop :=
  encode .kdValidate = 0x0000001B#32 ∧
  ∀ s : State, ∃ v, exec .kdValidate s = .next { s with vres := v } ∧
    (s.kblen = 0 → v.code = 2#2) ∧
    (1 ≤ s.kblen ∧ s.kblen ≤ 1024 → v.code = 1#2) ∧
    (1024 < s.kblen → v.code = 3#2)

/-- 41_key_validation.md R121: both ways of loading a byte sequence, and the verdict is that of
`validate_key`. -/
def Obligations.ValidateCommandsComputeValidateKey : Prop :=
  (∀ (s : State) (k : List Byte), s.Inv → s.err = none → k.length ≤ Config.CAP →
    ∃ t, runEvents (commands (.kbClr :: k.map .kbPush ++ [.kdValidate])) s = .next t ∧
      t.err = none ∧ t.keyBytes = k ∧ verdictAgrees t.vres k) ∧
  (∀ (s : State) (u : List Byte), s.Inv → s.err = none → u.length ≤ Config.CAP →
    ∃ t, runEvents (commands (.ksClr :: u.map .ksPush ++ [.kdParse, .kdValidate])) s = .next t ∧
      t.err = none ∧ t.keyBytes = parseBytes u ∧ verdictAgrees t.vres (parseBytes u))

/-- 41_key_validation.md R122 ("No command reads `VRES`") and 10_state.md R25 (`KDNUM`: "No command
reads it"): from states that differ only there, a command does the same to everything else. -/
def Obligations.NoCommandReadsVresOrKdnum : Prop :=
  ∀ (i : Instr) (s t : State) (v : Verdict) (k : Bool), exec i s = .next t →
    ∃ t', exec i { s with vres := v, kdnum := k } = .next t' ∧
      { t' with vres := .none, kdnum := false } = { t with vres := .none, kdnum := false }

/-- 10_state.md R23, R24, R25, R26: which commands write the key-derivation state. -/
def Obligations.KeyDerivationStateHasOnlyItsWriters : Prop :=
  ∀ (i : Instr) (s t : State), exec i s = .next t →
    (t.ks ≠ s.ks ∨ t.kslen ≠ s.kslen → i = .ksClr ∨ ∃ b, i = .ksPush b) ∧
    (t.kb ≠ s.kb ∨ t.kblen ≠ s.kblen → i = .kdParse ∨ i = .kbClr ∨ ∃ b, i = .kbPush b) ∧
    (t.kdnum ≠ s.kdnum → i = .kdParse) ∧
    (t.vres ≠ s.vres → i = .kdValidate ∨ i = .kdParse ∨ i = .kbClr ∨ ∃ b, i = .kbPush b)

/-! ### The cipher engine -/

/-- 10_state.md R27 to R33: which commands write the engine state, `RES` and `ERR`. -/
def Obligations.EngineStateHasOnlyItsWriters : Prop :=
  ∀ (i : Instr) (s t : State), exec i s = .next t →
    (t.key ≠ s.key ∨ t.klen ≠ s.klen → i = .engNew) ∧
    (t.kidx ≠ s.kidx ∨ t.pos ≠ s.pos →
      i = .engNew ∨ i = .msgEnc ∨ i = .msgDec ∨ ∃ d, i = .xfer d) ∧
    (t.active ≠ s.active →
      i = .msgEnc ∨ i = .msgDec ∨ i = .msgEnd ∨ i = .engNew ∨
        ((∃ d, i = .xfer d) ∧ t.err = some .moduloByZero)) ∧
    (t.mode ≠ s.mode → i = .msgEnc ∨ i = .msgDec) ∧
    (t.res ≠ s.res → (∃ d, i = .xfer d) ∨ (∃ x, i = .kbRead x) ∨ ∃ x, i = .keyRead x) ∧
    (t.err ≠ s.err → i = .clrErr ∨ faultOf i s = t.err)

/-- 42_cipher_engine.md R131: the sums and differences reduced modulo 256, each by one conditional
subtraction of 256. -/
def Obligations.ModularAdderReducesOnce : Prop :=
  ∀ d k : Byte,
    (add8 d k).toNat = (d.toNat + k.toNat) % 256 ∧
    ((sub8 d k).toNat : Int) = ((d.toNat : Int) - k.toNat + 256) % 256 ∧
    (add8 d k).toNat =
      (if d.toNat + k.toNat < 256 then d.toNat + k.toNat else d.toNat + k.toNat - 256) ∧
    ((sub8 d k).toNat : Int) =
      (if (d.toNat : Int) - k.toNat + 256 < 256 then (d.toNat : Int) - k.toNat + 256
        else (d.toNat : Int) - k.toNat)

/-- 42_cipher_engine.md R132. -/
def Obligations.AdderAndSubtractorAreInverse : Prop :=
  ∀ d k : Byte, sub8 (add8 d k) k = d ∧ add8 (sub8 d k) k = d

/-- 42_cipher_engine.md R133: `ENG_NEW` copies `KB[0..KBLEN)` by value, whatever `VRES` and the length
are, closes the message, and changes nothing else. -/
def Obligations.EngNewBindsTheKeyBytes : Prop :=
  encode .engNew = 0x00000020#32 ∧
  ∀ s : State, s.Inv → ∃ m,
    exec .engNew s = .next { s with
      key := m, klen := s.kblen, kidx := 0, pos := 0#32, active := false } ∧
    (∀ a, a < s.kblen → Memory.read m a = Memory.read s.kb a) ∧
    (∀ a, s.kblen ≤ a → Memory.read m a = Memory.read s.key a)

/-- 42_cipher_engine.md R134: `KEY_READ` reads a byte below `L` into `RES` and changes nothing else;
any other index faults `INDEX_RANGE`. -/
def Obligations.KeyReadReadsOneByteIntoRes : Prop :=
  ∀ (s : State) (idx : BitVec 16), s.Inv →
    encode (.keyRead idx) = 0x00000021#32 ||| (idx.setWidth 32 <<< 8) ∧
    (∀ h : idx.toNat < s.engineKey.length,
      exec (.keyRead idx) s = .next { s with res := s.engineKey[idx.toNat] }) ∧
    (s.klen ≤ idx.toNat → exec (.keyRead idx) s = .next { s with
      err := some .indexRange, faultLog := s.faultLog ++ [.indexRange] })

/-- 42_cipher_engine.md R136 and R137. -/
def Obligations.MessageCommandsOpenAMessage : Prop :=
  encode .msgEnc = 0x00000030#32 ∧ encode .msgDec = 0x00000031#32 ∧
  ∀ s : State,
    exec .msgEnc s = .next { s with active := true, mode := .encrypt, kidx := 0, pos := 0#32 } ∧
    exec .msgDec s = .next { s with active := true, mode := .decrypt, kidx := 0, pos := 0#32 }

/-- 42_cipher_engine.md R138. -/
def Obligations.MsgEndClosesTheMessage : Prop :=
  encode .msgEnd = 0x00000032#32 ∧
  ∀ s : State, exec .msgEnd s = .next { s with active := false }

/-- 42_cipher_engine.md R139: the three cases of `XFER`, with everything each leaves unchanged. -/
def Obligations.XferTransformsOneByte : Prop :=
  ∀ (s : State) (d : Byte), s.Inv →
    encode (.xfer d) = 0x00000033#32 ||| (d.setWidth 32 <<< 8) ∧
    (s.active = true → 0 < s.klen → ∃ r : Byte,
      exec (.xfer d) s = .next { s with
        res := r
        kidx := if s.kidx + 1 = s.klen then 0 else s.kidx + 1
        pos := s.pos + 1#32 } ∧
      (s.mode = .encrypt → r.toNat = (d.toNat + (Memory.read s.key s.kidx).toNat) % 256) ∧
      (s.mode = .decrypt →
        (r.toNat : Int) = ((d.toNat : Int) - (Memory.read s.key s.kidx).toNat + 256) % 256)) ∧
    (s.active = false → exec (.xfer d) s = .next { s with
      err := some .noMessage, faultLog := s.faultLog ++ [.noMessage] }) ∧
    (s.active = true → s.klen = 0 → exec (.xfer d) s = .next { s with
      active := false, err := some .moduloByZero, faultLog := s.faultLog ++ [.moduloByZero] })

/-- 42_cipher_engine.md R140 and 10_state.md R28, R31: after the XFERs of `i` data bytes the key index
is `i mod L`, the byte that data index `i` is transformed with, however long the message is. -/
def Obligations.KeyIndexIsDataIndexModuloLength : Prop :=
  ∀ (s : State) (m : Mode) (data : List Byte), s.Inv → s.err = none → 0 < s.klen →
    ∃ t, runEvents (commands (openingOf m :: data.map .xfer)) s = .next t ∧
      t.kidx = data.length % s.klen ∧ t.pos = BitVec.ofNat 32 data.length ∧
      t.active = true ∧ t.mode = m ∧ t.err = none ∧ t.engineKey = s.engineKey

/-- 42_cipher_engine.md R141 and R142: the values of `RES` read after each `XFER` of a message are the
source's `encrypt` or `decrypt` of the data under the bound key, and no fault is taken. -/
def Obligations.MessageComputesTheSourceTransform : Prop :=
  ∀ (s : State) (m : Mode) (data : List Byte), s.Inv → s.err = none → 0 < s.klen →
    ∃ out t, sourceTransform m s.engineKey data = some out ∧
      runEvents (messageEvents m data) s = .next t ∧
      t.reads = s.reads ++ out.map resWord ∧
      t.err = none ∧ t.faultLog = s.faultLog ∧ t.active = false ∧ t.engineKey = s.engineKey

/-- 42_cipher_engine.md R143: the outputs of a message, given to a message of the other mode under the
same key, give the data back, and there is one output for each data byte. -/
def Obligations.OppositeMessageRestoresTheData : Prop :=
  ∀ (s : State) (m n : Mode) (data : List Byte), s.Inv → s.err = none → 0 < s.klen → n ≠ m →
    ∃ out t u, out.length = data.length ∧
      runEvents (messageEvents m data) s = .next t ∧
      t.reads = s.reads ++ out.map resWord ∧
      runEvents (messageEvents n out) t = .next u ∧
      u.reads = t.reads ++ data.map resWord

/-- 42_cipher_engine.md R144: binding a key repeated `r` times gives the same outputs as binding the
key. -/
def Obligations.RepeatedKeyGivesTheSameOutputs : Prop :=
  ∀ (s s' : State) (r : Nat) (m : Mode) (data : List Byte),
    s.Inv → s'.Inv → s.err = none → s'.err = none → 1 ≤ r → 0 < s.kblen →
    s'.keyBytes = (List.replicate r s.keyBytes).flatten →
    ∃ out t t', out.length = data.length ∧
      runEvents (commands [.engNew] ++ messageEvents m data) s = .next t ∧
      runEvents (commands [.engNew] ++ messageEvents m data) s' = .next t' ∧
      t.reads = s.reads ++ out ∧ t'.reads = s'.reads ++ out ∧ t.err = none ∧ t'.err = none

/-- 42_cipher_engine.md R145: a message without data produces no output and no fault for every `L`;
with `L = 0` the first `XFER` faults `MODULO_BY_ZERO`, closes the message, and no output is
produced. -/
def Obligations.EmptyMessageAndZeroLengthKey : Prop :=
  ∀ (s : State) (m : Mode), s.Inv → s.err = none →
    (∃ t, runEvents (messageEvents m []) s = .next t ∧ t.reads = s.reads ∧ t.res = s.res ∧
      t.err = none ∧ t.faultLog = s.faultLog ∧ t.active = false) ∧
    (s.klen = 0 → ∀ (d : Byte) (ds : List Byte),
      ∃ t, runEvents (messageEvents m (d :: ds)) s = .next t ∧ t.res = s.res ∧
        t.reads = s.reads ++ List.replicate (ds.length + 1) (resWord s.res) ∧
        t.err = some .moduloByZero ∧ t.faultLog = s.faultLog ++ [.moduloByZero] ∧
        t.active = false)

/-! ### Whole-machine rules -/

/-- 20_memory.md R56: for the listed commands a second identical word directly after the first leaves
the state as the first left it. -/
def Obligations.ListedCommandsAreIdempotent : Prop :=
  ∀ (i : Instr) (s t : State), s.Inv → idempotentCommand i = true →
    execute (encode i) s = .next t → execute (encode i) t = .next t

/-- 10_state.md R38: no step, no read and no later state that shows depends on the bytes at or beyond
the lengths. -/
def Obligations.HiddenBytesNeverShow : Prop :=
  ∀ s t : State, s.Inv → t.Inv → SameVisible s t → sameAnswer (step s) (step t)

/-- 70_reset_and_hazards.md R202 with R110, R121, R141, R142: load a key text, parse, validate, read
`STATUS` and see `VRES = 1`, bind, run one message: the bytes read are the source's transform of the
data under `parse_key` of the text, and no fault is taken. UTF-8 is from outside the spec (assumption
log 13). -/
def Obligations.BootOrderComputesTheSourceFlow : Prop :=
  ∀ (s : State) (text : List Char) (m : Mode) (data : List Byte), s.Inv → s.err = none →
    (utf8 text).length ≤ Config.CAP → sourceValidateKey (sourceParseKey text) = none →
    ∃ status out t, sourceTransform m (sourceParseKey text) data = some out ∧
      runEvents (commands (Pseudo.loadKey text).expand ++ [HostEvent.rd .STATUS] ++
        commands [.engNew] ++ messageEvents m data) s = .next t ∧
      t.reads = s.reads ++ status :: out.map resWord ∧
      status.extractLsb' 16 2 = 1#2 ∧ t.err = none ∧ t.faultLog = s.faultLog

/-- 70_reset_and_hazards.md R202 with R121, R141, R142, step 1 the other way: load a raw key with
`KB_CLR` and one `KB_PUSH` per byte, validate, read `STATUS` and see `VRES = 1`, bind, run one message:
the bytes read are the source's transform of the data under that key, and no fault is taken. -/
def Obligations.BootOrderWithARawKeyComputesTheSourceFlow : Prop :=
  ∀ (s : State) (k : List Byte) (m : Mode) (data : List Byte), s.Inv → s.err = none →
    k.length ≤ Config.CAP → sourceValidateKey k = none →
    ∃ status out t, sourceTransform m k data = some out ∧
      runEvents (commands ((Pseudo.kbBytes k).expand ++ [.kdValidate]) ++ [HostEvent.rd .STATUS] ++
        commands [.engNew] ++ messageEvents m data) s = .next t ∧
      t.reads = s.reads ++ status :: out.map resWord ∧
      status.extractLsb' 16 2 = 1#2 ∧ t.err = none ∧ t.faultLog = s.faultLog
end

