-- ==== Sys2Proof/Laws/Decode.lean ====
section
/-! SUPPORT. The opcode table is unambiguous, and the fields of an encoded word are what was put
in. -/

namespace Sys2Proof

/-- Two rows that could select one word: their patterns agree wherever both masks look. -/
def OpcodeRow.overlaps (r q : OpcodeRow) : Bool :=
  r.pattern &&& q.mask &&& r.mask == q.pattern &&& r.mask &&& q.mask

/-- No two rows of the opcode table overlap, so every word has one meaning (30_encoding.md R77). -/
theorem opcodeTable_no_overlap :
    opcodeTable.Pairwise (fun r q => r.overlaps q = false) := by decide

@[simp] theorem opcodeOf_encodeN (op : BitVec 8) : opcodeOf (encodeN op) = op := by
  unfold opcodeOf encodeN
  exact BitVec.extractLsb'_append_eq_right

@[simp] theorem opcodeOf_encodeB (op : BitVec 8) (b : Byte) : opcodeOf (encodeB op b) = op := by
  unfold opcodeOf encodeB
  exact BitVec.extractLsb'_append_eq_right

@[simp] theorem opcodeOf_encodeI (op : BitVec 8) (i : BitVec 16) : opcodeOf (encodeI op i) = op := by
  unfold opcodeOf encodeI
  exact BitVec.extractLsb'_append_eq_right

@[simp] theorem byteField_encodeB (op : BitVec 8) (b : Byte) : byteField (encodeB op b) = b := by
  ext j hj
  simp only [byteField, encodeB, BitVec.getElem_extractLsb', BitVec.getLsbD_append]
  interval_cases j <;> simp

@[simp] theorem indexField_encodeI (op : BitVec 8) (i : BitVec 16) :
    indexField (encodeI op i) = i := by
  ext j hj
  simp only [indexField, encodeI, BitVec.getElem_extractLsb', BitVec.getLsbD_append]
  interval_cases j <;> simp

end Sys2Proof
end

