-- ==== Sys2Proof/Laws/Memory.lean ====
section
/-! SUPPORT. The laws of byte memories: a read after a write, and the canonical form that every
operation keeps. -/

namespace Sys2Proof.Machine

theorem Memory.read_nil (a : Nat) : Memory.read [] a = Memory.unlisted := rfl

theorem Memory.read_cons (k : Nat) (c : Byte) (m : Memory) (a : Nat) :
    Memory.read ((k, c) :: m) a = if k = a then c else Memory.read m a := rfl

/-- Below every listed index a memory reads as unlisted. -/
theorem Memory.read_of_lt {m : Memory} {a : Nat} (h : ∀ c ∈ m, a < c.1) :
    Memory.read m a = Memory.unlisted := by
  induction m with
  | nil => rfl
  | cons c m ih =>
    obtain ⟨k, b⟩ := c
    have hk : a < k := h (k, b) (by simp)
    rw [Memory.read_cons, if_neg (by omega)]
    exact ih fun c hc => h c (by simp [hc])

/-- The tail of a canonical memory is canonical and lies above its head. -/
theorem Memory.wf_cons {k : Nat} {c : Byte} {m : Memory} :
    Memory.wf ((k, c) :: m) ↔ (∀ x ∈ m, k < x.1) ∧ c ≠ Memory.unlisted ∧ Memory.wf m := by
  simp only [Memory.wf, List.pairwise_cons, List.mem_cons, forall_eq_or_imp]
  tauto

/-- What `Memory.write` lists: entries of the old memory, and the written byte. -/
theorem Memory.mem_write {m : Memory} {a : Nat} {b : Byte} {x : Host.Cell}
    (h : x ∈ Memory.write m a b) : x ∈ m ∨ (x = (a, b) ∧ b ≠ Memory.unlisted) := by
  induction m with
  | nil => unfold Memory.write at h; split at h <;> simp_all
  | cons c m ih =>
    obtain ⟨k, c⟩ := c
    unfold Memory.write at h
    split_ifs at h <;> simp only [List.mem_cons] at h ⊢ <;> tauto

/-- A read after a write to the same byte gives the byte written; every other byte reads as
before. -/
theorem Memory.read_write {m : Memory} (hm : Memory.wf m) (a : Nat) (b : Byte) (j : Nat) :
    Memory.read (Memory.write m a b) j = if j = a then b else Memory.read m j := by
  induction m with
  | nil =>
    unfold Memory.write
    split_ifs <;> simp_all [Memory.read, eq_comm]
  | cons c m ih =>
    obtain ⟨k, c⟩ := c
    obtain ⟨hlt, -, hm⟩ := Memory.wf_cons.1 hm
    unfold Memory.write
    by_cases hak : a < k
    · have hlow : Memory.read ((k, c) :: m) a = Memory.unlisted := by
        apply Memory.read_of_lt
        intro x hx
        rcases List.mem_cons.1 hx with rfl | hx
        · exact hak
        · exact Nat.lt_trans hak (hlt x hx)
      rw [if_pos hak]
      by_cases hb : b = Memory.unlisted
      · rw [if_pos hb]
        by_cases hj : j = a
        · rw [if_pos hj, hj, hlow, hb]
        · rw [if_neg hj]
      · rw [if_neg hb, Memory.read_cons]
        by_cases hj : j = a
        · simp [hj]
        · rw [if_neg hj, if_neg (by omega)]
    · rw [if_neg hak]
      by_cases hk : a = k
      · subst hk
        rw [if_pos rfl]
        by_cases hb : b = Memory.unlisted
        · rw [if_pos hb]
          by_cases hj : j = a
          · rw [if_pos hj, hj, hb]
            exact Memory.read_of_lt hlt
          · rw [if_neg hj, Memory.read_cons, if_neg (by omega)]
        · rw [if_neg hb, Memory.read_cons, Memory.read_cons]
          by_cases hj : j = a
          · simp [hj]
          · rw [if_neg (by omega), if_neg hj, if_neg (by omega)]
      · rw [if_neg hk, Memory.read_cons, Memory.read_cons, ih hm]
        by_cases hj : k = j
        · rw [if_pos hj, if_neg (by omega), if_pos hj]
        · rw [if_neg hj, if_neg hj]

/-- A write keeps the canonical form. -/
theorem Memory.wf_write {m : Memory} (hm : Memory.wf m) (a : Nat) (b : Byte) :
    Memory.wf (Memory.write m a b) := by
  induction m with
  | nil =>
    unfold Memory.write
    split_ifs with hb <;> simp [Memory.wf, hb]
  | cons c m ih =>
    obtain ⟨k, c⟩ := c
    obtain ⟨hlt, hc, hm'⟩ := Memory.wf_cons.1 hm
    unfold Memory.write
    by_cases hak : a < k
    · rw [if_pos hak]
      by_cases hb : b = Memory.unlisted
      · rwa [if_pos hb]
      · rw [if_neg hb]
        refine Memory.wf_cons.2 ⟨?_, hb, hm⟩
        intro x hx
        rcases List.mem_cons.1 hx with rfl | hx
        · exact hak
        · exact Nat.lt_trans hak (hlt x hx)
    · rw [if_neg hak]
      by_cases hk : a = k
      · subst hk
        rw [if_pos rfl]
        by_cases hb : b = Memory.unlisted
        · rwa [if_pos hb]
        · rw [if_neg hb]
          exact Memory.wf_cons.2 ⟨hlt, hb, hm'⟩
      · rw [if_neg hk]
        refine Memory.wf_cons.2 ⟨?_, hc, ih hm'⟩
        intro x hx
        rcases Memory.mem_write hx with hx | ⟨rfl, -⟩
        · exact hlt x hx
        · show k < a
          omega

/-- A write below `CAP` lists only bytes below `CAP`. -/
theorem Memory.inCap_write {m : Memory} (hm : Memory.inCap m) {a : Nat} (ha : a < Config.CAP)
    (b : Byte) : Memory.inCap (Memory.write m a b) := by
  intro x hx
  rcases Memory.mem_write hx with hx | ⟨rfl, -⟩
  · exact hm x hx
  · exact ha

/-! ### Writing a sequence -/

theorem Memory.wf_writeFrom {m : Memory} (hm : Memory.wf m) (a : Nat) (bs : List Byte) :
    Memory.wf (Memory.writeFrom m a bs) := by
  induction bs generalizing m a with
  | nil => exact hm
  | cons b bs ih => exact ih (Memory.wf_write hm a b) (a + 1)

theorem Memory.inCap_writeFrom {m : Memory} (hm : Memory.inCap m) {a : Nat} {bs : List Byte}
    (ha : a + bs.length ≤ Config.CAP) : Memory.inCap (Memory.writeFrom m a bs) := by
  induction bs generalizing m a with
  | nil => exact hm
  | cons b bs ih =>
    rw [List.length_cons] at ha
    exact ih (Memory.inCap_write hm (by omega) b) (by omega)

/-- What a memory reads as after a sequence was written: the sequence where it stands, and the old
bytes elsewhere. -/
theorem Memory.read_writeFrom {m : Memory} (hm : Memory.wf m) (a : Nat) (bs : List Byte) (j : Nat) :
    Memory.read (Memory.writeFrom m a bs) j =
      if a ≤ j ∧ j < a + bs.length then bs.getD (j - a) 0#8 else Memory.read m j := by
  induction bs generalizing m a with
  | nil =>
    rw [if_neg (by simp only [List.length_nil]; omega)]
    rfl
  | cons b bs ih =>
    rw [Memory.writeFrom, ih (Memory.wf_write hm a b) (a + 1), Memory.read_write hm]
    by_cases hj : j = a
    · subst hj
      simp
    · by_cases h : a + 1 ≤ j ∧ j < a + 1 + bs.length
      · have hja : j - a = (j - (a + 1)) + 1 := by omega
        rw [if_pos h, if_pos (by simp only [List.length_cons]; omega), hja, List.getD_cons_succ]
      · rw [if_neg h, if_neg hj, if_neg (by simp only [List.length_cons]; omega)]

/-! ### Reading a sequence -/

@[simp] theorem Memory.length_bytes (m : Memory) (n : Nat) : (Memory.bytes m n).length = n := by
  simp [Memory.bytes]

@[simp] theorem Memory.getElem_bytes (m : Memory) (n j : Nat) (h : j < (Memory.bytes m n).length) :
    (Memory.bytes m n)[j] = Memory.read m j := by
  simp [Memory.bytes]

/-- Sequences depend only on the bytes below their length. -/
theorem Memory.bytes_congr {m m' : Memory} {n : Nat}
    (h : ∀ j, j < n → Memory.read m j = Memory.read m' j) :
    Memory.bytes m n = Memory.bytes m' n := by
  apply List.map_congr_left
  intro j hj
  exact h j (List.mem_range.1 hj)

/-- A sequence written from byte 0 is read back. -/
theorem Memory.bytes_writeFrom {m : Memory} (hm : Memory.wf m) (bs : List Byte) :
    Memory.bytes (Memory.writeFrom m 0 bs) bs.length = bs := by
  apply List.ext_getElem (by simp)
  intro j h₁ h₂
  rw [Memory.getElem_bytes, Memory.read_writeFrom hm, if_pos (by omega), Nat.sub_zero,
    List.getD_eq_getElem _ _ h₂]

/-- A byte written at the end of a sequence is appended to it. -/
theorem Memory.bytes_write_end {m : Memory} (hm : Memory.wf m) (n : Nat) (b : Byte) :
    Memory.bytes (Memory.write m n b) (n + 1) = Memory.bytes m n ++ [b] := by
  have hlow : Memory.bytes (Memory.write m n b) n = Memory.bytes m n := by
    apply Memory.bytes_congr
    intro j hj
    rw [Memory.read_write hm, if_neg (by omega)]
  have hend : Memory.read (Memory.write m n b) n = b := by
    rw [Memory.read_write hm, if_pos rfl]
  unfold Memory.bytes at hlow ⊢
  rw [List.range_succ, List.map_append, hlow, List.map_singleton, hend]

/-- Equal memories are equal data: the canonical form is determined by the bytes. -/
theorem Memory.ext_of_wf {m m' : Memory} (h : Memory.wf m) (h' : Memory.wf m')
    (e : ∀ a, Memory.read m a = Memory.read m' a) : m = m' := by
  induction m generalizing m' with
  | nil =>
    cases m' with
    | nil => rfl
    | cons c m' =>
      obtain ⟨k, c⟩ := c
      have := e k
      rw [Memory.read_nil, Memory.read_cons, if_pos rfl] at this
      exact absurd this.symm (Memory.wf_cons.1 h').2.1
  | cons c m ih =>
    obtain ⟨k, c⟩ := c
    have w := Memory.wf_cons.1 h
    cases m' with
    | nil =>
      have := e k
      rw [Memory.read_nil, Memory.read_cons, if_pos rfl] at this
      exact absurd this w.2.1
    | cons c' m' =>
      obtain ⟨k', c'⟩ := c'
      have w' := Memory.wf_cons.1 h'
      have hk : k = k' := by
        rcases Nat.lt_trichotomy k k' with hlt | heq | hlt
        · have := e k
          rw [Memory.read_cons, if_pos rfl, Memory.read_of_lt (m := (k', c')::m')] at this
          · exact absurd this w.2.1
          · intro x hx; rcases List.mem_cons.1 hx with rfl | hx
            · exact hlt
            · exact hlt.trans (w'.1 x hx)
        · exact heq
        · have := e k'
          rw [Memory.read_cons (k := k') (a := k'), if_pos rfl, Memory.read_of_lt (m := (k, c)::m)] at this
          · exact absurd this.symm w'.2.1
          · intro x hx; rcases List.mem_cons.1 hx with rfl | hx
            · exact hlt
            · exact hlt.trans (w.1 x hx)
      subst hk
      have hc : c = c' := by
        have := e k
        rwa [Memory.read_cons, Memory.read_cons, if_pos rfl, if_pos rfl] at this
      subst hc
      congr 1
      apply ih w.2.2 w'.2.2
      intro a
      by_cases ha : k = a
      · subst ha
        rw [Memory.read_of_lt w.1, Memory.read_of_lt w'.1]
      · have := e a
        rwa [Memory.read_cons, Memory.read_cons, if_neg ha, if_neg ha] at this

end Sys2Proof.Machine
end

