-- ==== Sys2Proof/Laws/Numeric.lean ====
section
/-! SUPPORT. The numbers behind `DecToBytes`: bit lengths, byte counts, and big-endian sequences
peeled at their last byte. -/

namespace Sys2Proof.Machine

/-- The model's bit length is the library's. -/
theorem bitlen_eq_size (v : Nat) : bitlen v = Nat.size v := by
  unfold bitlen
  by_cases hv : v = 0
  · simp [hv]
  · rw [if_neg hv]
    apply le_antisymm
    · exact Nat.lt_size.2 (Nat.log2_self_le hv)
    · exact Nat.size_le.2 Nat.lt_log2_self

theorem byteCount_zero : byteCount 0 = 0 := rfl

/-- A value fits in its byte count. -/
theorem lt_pow_byteCount (v : Nat) : v < 256 ^ byteCount v := by
  have hb : v < 2 ^ bitlen v := by
    rw [bitlen_eq_size]
    exact Nat.lt_size_self v
  have hp : (256 : Nat) ^ byteCount v = 2 ^ (8 * byteCount v) := by
    rw [Nat.pow_mul]
  rw [hp]
  exact Nat.lt_of_lt_of_le hb (Nat.pow_le_pow_right (by decide) (by unfold byteCount; omega))

/-- A byte count is at most `m` exactly when the value fits in `m` bytes. -/
theorem byteCount_le {v m : Nat} : byteCount v ≤ m ↔ v < 256 ^ m := by
  have hp : (256 : Nat) ^ m = 2 ^ (8 * m) := by rw [Nat.pow_mul]
  rw [hp, ← Nat.size_le, ← bitlen_eq_size]
  unfold byteCount
  omega

/-- Dropping the last byte of a positive value drops one byte of its count. -/
theorem byteCount_div {v : Nat} (hv : 0 < v) : byteCount v = byteCount (v / 256) + 1 := by
  have key : ∀ m, byteCount v ≤ m + 1 ↔ byteCount (v / 256) ≤ m := by
    intro m
    rw [byteCount_le, byteCount_le, Nat.div_lt_iff_lt_mul (by decide), Nat.pow_succ]
  have hpos : byteCount v ≠ 0 := by
    intro h0
    have := byteCount_le.1 (Nat.le_of_eq h0)
    omega
  have h₁ := (key (byteCount v - 1)).1 (by omega)
  have h₂ := (key (byteCount (v / 256))).2 (Nat.le_refl _)
  omega

@[simp] theorem length_bigEndian (m v : Nat) : (bigEndian m v).length = m := by
  simp [bigEndian]

theorem bigEndian_zero (v : Nat) : bigEndian 0 v = [] := rfl

/-- The last byte of a big-endian sequence is the value modulo 256; the bytes before it are those of
the quotient. -/
theorem bigEndian_succ (m v : Nat) :
    bigEndian (m + 1) v = bigEndian m (v / 256) ++ [BitVec.ofNat 8 (v % 256)] := by
  unfold bigEndian
  rw [List.range_succ, List.map_append, List.map_singleton]
  congr 1
  · apply List.map_congr_left
    intro j hj
    have hj : j < m := List.mem_range.1 hj
    have hexp : m + 1 - 1 - j = (m - 1 - j) + 1 := by omega
    rw [hexp, Nat.pow_succ', Nat.div_div_eq_div_mul]
  · simp

/-- The spec's `DecToBytes` bytes are the library's base-256 digits, most significant first. -/
theorem bigEndian_eq_minimalBigEndian (v : Nat) :
    bigEndian (byteCount v) v = minimalBigEndian v := by
  induction v using Nat.strongRecOn with
  | ind v ih =>
    by_cases hv : v = 0
    · subst hv
      rfl
    · have hpos : 0 < v := Nat.pos_of_ne_zero hv
      rw [byteCount_div hpos, bigEndian_succ, ih (v / 256) (Nat.div_lt_self hpos (by decide))]
      unfold minimalBigEndian
      rw [Nat.digits_def' (by decide) hpos, List.reverse_cons, List.map_append, List.map_singleton]

/-! ### The value of a digit string -/

/-- A digit appended to a string: ten times the value, plus the digit. -/
theorem decValue_append (s : List Byte) (b : Byte) :
    decValue (s ++ [b]) = decValue s * 10 + (b.toNat - 0x30) := by
  induction s with
  | nil => simp [decValue]
  | cons c s ih =>
    rw [List.cons_append, decValue, decValue, ih, List.length_append, List.length_singleton,
      Nat.pow_succ]
    ring

/-- A string of `n` digits has a value below `10^n`. -/
theorem decValue_lt {s : List Byte} (h : ∀ b ∈ s, b.toNat ≤ 0x39) : decValue s < 10 ^ s.length := by
  induction s with
  | nil => simp [decValue]
  | cons b s ih =>
    have hb : b.toNat - 0x30 ≤ 9 := by have := h b (by simp); omega
    have hs := ih fun c hc => h c (by simp [hc])
    rw [decValue, List.length_cons, Nat.pow_succ]
    have := Nat.mul_le_mul_right (10 ^ s.length) hb
    omega

end Sys2Proof.Machine
end

