-- ==== Sys2Proof/Laws/State.lean ====
section
/-! SUPPORT. One lemma per field per named update of the state, each true by unfolding, so that no
proof unfolds an update. -/

namespace Sys2Proof.Machine

/-! ### Taking a fault -/

@[simp] theorem raiseFault_ks (c : ErrCode) (s : State) : (raiseFault c s).ks = s.ks := rfl
@[simp] theorem raiseFault_kslen (c : ErrCode) (s : State) : (raiseFault c s).kslen = s.kslen := rfl
@[simp] theorem raiseFault_kb (c : ErrCode) (s : State) : (raiseFault c s).kb = s.kb := rfl
@[simp] theorem raiseFault_kblen (c : ErrCode) (s : State) : (raiseFault c s).kblen = s.kblen := rfl
@[simp] theorem raiseFault_kdnum (c : ErrCode) (s : State) : (raiseFault c s).kdnum = s.kdnum := rfl
@[simp] theorem raiseFault_vres (c : ErrCode) (s : State) : (raiseFault c s).vres = s.vres := rfl
@[simp] theorem raiseFault_key (c : ErrCode) (s : State) : (raiseFault c s).key = s.key := rfl
@[simp] theorem raiseFault_klen (c : ErrCode) (s : State) : (raiseFault c s).klen = s.klen := rfl
@[simp] theorem raiseFault_kidx (c : ErrCode) (s : State) : (raiseFault c s).kidx = s.kidx := rfl
@[simp] theorem raiseFault_active (c : ErrCode) (s : State) : (raiseFault c s).active = (if c = .moduloByZero then false else s.active) := rfl
@[simp] theorem raiseFault_mode (c : ErrCode) (s : State) : (raiseFault c s).mode = s.mode := rfl
@[simp] theorem raiseFault_pos (c : ErrCode) (s : State) : (raiseFault c s).pos = s.pos := rfl
@[simp] theorem raiseFault_res (c : ErrCode) (s : State) : (raiseFault c s).res = s.res := rfl
@[simp] theorem raiseFault_err (c : ErrCode) (s : State) : (raiseFault c s).err = some c := rfl
@[simp] theorem raiseFault_faultLog (c : ErrCode) (s : State) : (raiseFault c s).faultLog = s.faultLog ++ [c] := rfl
@[simp] theorem raiseFault_inputs (c : ErrCode) (s : State) : (raiseFault c s).inputs = s.inputs := rfl
@[simp] theorem raiseFault_reads (c : ErrCode) (s : State) : (raiseFault c s).reads = s.reads := rfl

/-! ### Returning from a fault -/

@[simp] theorem clearFault_ks (s : State) : (clearFault s).ks = s.ks := rfl
@[simp] theorem clearFault_kslen (s : State) : (clearFault s).kslen = s.kslen := rfl
@[simp] theorem clearFault_kb (s : State) : (clearFault s).kb = s.kb := rfl
@[simp] theorem clearFault_kblen (s : State) : (clearFault s).kblen = s.kblen := rfl
@[simp] theorem clearFault_kdnum (s : State) : (clearFault s).kdnum = s.kdnum := rfl
@[simp] theorem clearFault_vres (s : State) : (clearFault s).vres = s.vres := rfl
@[simp] theorem clearFault_key (s : State) : (clearFault s).key = s.key := rfl
@[simp] theorem clearFault_klen (s : State) : (clearFault s).klen = s.klen := rfl
@[simp] theorem clearFault_kidx (s : State) : (clearFault s).kidx = s.kidx := rfl
@[simp] theorem clearFault_active (s : State) : (clearFault s).active = s.active := rfl
@[simp] theorem clearFault_mode (s : State) : (clearFault s).mode = s.mode := rfl
@[simp] theorem clearFault_pos (s : State) : (clearFault s).pos = s.pos := rfl
@[simp] theorem clearFault_res (s : State) : (clearFault s).res = s.res := rfl
@[simp] theorem clearFault_err (s : State) : (clearFault s).err = none := rfl
@[simp] theorem clearFault_faultLog (s : State) : (clearFault s).faultLog = s.faultLog := rfl
@[simp] theorem clearFault_inputs (s : State) : (clearFault s).inputs = s.inputs := rfl
@[simp] theorem clearFault_reads (s : State) : (clearFault s).reads = s.reads := rfl

/-! ### Opening a message -/

@[simp] theorem openMessage_ks (m : Mode) (s : State) : (openMessage m s).ks = s.ks := rfl
@[simp] theorem openMessage_kslen (m : Mode) (s : State) : (openMessage m s).kslen = s.kslen := rfl
@[simp] theorem openMessage_kb (m : Mode) (s : State) : (openMessage m s).kb = s.kb := rfl
@[simp] theorem openMessage_kblen (m : Mode) (s : State) : (openMessage m s).kblen = s.kblen := rfl
@[simp] theorem openMessage_kdnum (m : Mode) (s : State) : (openMessage m s).kdnum = s.kdnum := rfl
@[simp] theorem openMessage_vres (m : Mode) (s : State) : (openMessage m s).vres = s.vres := rfl
@[simp] theorem openMessage_key (m : Mode) (s : State) : (openMessage m s).key = s.key := rfl
@[simp] theorem openMessage_klen (m : Mode) (s : State) : (openMessage m s).klen = s.klen := rfl
@[simp] theorem openMessage_kidx (m : Mode) (s : State) : (openMessage m s).kidx = 0 := rfl
@[simp] theorem openMessage_active (m : Mode) (s : State) : (openMessage m s).active = true := rfl
@[simp] theorem openMessage_mode (m : Mode) (s : State) : (openMessage m s).mode = m := rfl
@[simp] theorem openMessage_pos (m : Mode) (s : State) : (openMessage m s).pos = 0#32 := rfl
@[simp] theorem openMessage_res (m : Mode) (s : State) : (openMessage m s).res = s.res := rfl
@[simp] theorem openMessage_err (m : Mode) (s : State) : (openMessage m s).err = s.err := rfl
@[simp] theorem openMessage_faultLog (m : Mode) (s : State) : (openMessage m s).faultLog = s.faultLog := rfl
@[simp] theorem openMessage_inputs (m : Mode) (s : State) : (openMessage m s).inputs = s.inputs := rfl
@[simp] theorem openMessage_reads (m : Mode) (s : State) : (openMessage m s).reads = s.reads := rfl

/-! ### The reset event -/

@[simp] theorem resetBlock_ks (s : State) : (resetBlock s).ks = [] := rfl
@[simp] theorem resetBlock_kslen (s : State) : (resetBlock s).kslen = 0 := rfl
@[simp] theorem resetBlock_kb (s : State) : (resetBlock s).kb = [] := rfl
@[simp] theorem resetBlock_kblen (s : State) : (resetBlock s).kblen = 0 := rfl
@[simp] theorem resetBlock_kdnum (s : State) : (resetBlock s).kdnum = false := rfl
@[simp] theorem resetBlock_vres (s : State) : (resetBlock s).vres = .none := rfl
@[simp] theorem resetBlock_key (s : State) : (resetBlock s).key = [] := rfl
@[simp] theorem resetBlock_klen (s : State) : (resetBlock s).klen = 0 := rfl
@[simp] theorem resetBlock_kidx (s : State) : (resetBlock s).kidx = 0 := rfl
@[simp] theorem resetBlock_active (s : State) : (resetBlock s).active = false := rfl
@[simp] theorem resetBlock_mode (s : State) : (resetBlock s).mode = .encrypt := rfl
@[simp] theorem resetBlock_pos (s : State) : (resetBlock s).pos = 0#32 := rfl
@[simp] theorem resetBlock_res (s : State) : (resetBlock s).res = 0#8 := rfl
@[simp] theorem resetBlock_err (s : State) : (resetBlock s).err = none := rfl
@[simp] theorem resetBlock_faultLog (s : State) : (resetBlock s).faultLog = s.faultLog := rfl
@[simp] theorem resetBlock_inputs (s : State) : (resetBlock s).inputs = s.inputs := rfl
@[simp] theorem resetBlock_reads (s : State) : (resetBlock s).reads = s.reads := rfl

/-! ### Placing a command -/

@[simp] theorem placeCommand_ks (w : Word) (s : State) : (placeCommand w s).ks = s.ks := rfl
@[simp] theorem placeCommand_kslen (w : Word) (s : State) : (placeCommand w s).kslen = s.kslen := rfl
@[simp] theorem placeCommand_kb (w : Word) (s : State) : (placeCommand w s).kb = s.kb := rfl
@[simp] theorem placeCommand_kblen (w : Word) (s : State) : (placeCommand w s).kblen = s.kblen := rfl
@[simp] theorem placeCommand_kdnum (w : Word) (s : State) : (placeCommand w s).kdnum = s.kdnum := rfl
@[simp] theorem placeCommand_vres (w : Word) (s : State) : (placeCommand w s).vres = s.vres := rfl
@[simp] theorem placeCommand_key (w : Word) (s : State) : (placeCommand w s).key = s.key := rfl
@[simp] theorem placeCommand_klen (w : Word) (s : State) : (placeCommand w s).klen = s.klen := rfl
@[simp] theorem placeCommand_kidx (w : Word) (s : State) : (placeCommand w s).kidx = s.kidx := rfl
@[simp] theorem placeCommand_active (w : Word) (s : State) : (placeCommand w s).active = s.active := rfl
@[simp] theorem placeCommand_mode (w : Word) (s : State) : (placeCommand w s).mode = s.mode := rfl
@[simp] theorem placeCommand_pos (w : Word) (s : State) : (placeCommand w s).pos = s.pos := rfl
@[simp] theorem placeCommand_res (w : Word) (s : State) : (placeCommand w s).res = s.res := rfl
@[simp] theorem placeCommand_err (w : Word) (s : State) : (placeCommand w s).err = s.err := rfl
@[simp] theorem placeCommand_faultLog (w : Word) (s : State) : (placeCommand w s).faultLog = s.faultLog := rfl
@[simp] theorem placeCommand_inputs (w : Word) (s : State) : (placeCommand w s).inputs = HostEvent.command w :: s.inputs := rfl
@[simp] theorem placeCommand_reads (w : Word) (s : State) : (placeCommand w s).reads = s.reads := rfl

end Sys2Proof.Machine
end

