-- ==== Sys2Proof/Laws/Ops.lean ====
section
/-! SUPPORT. What the shared operations can do: the index guards, the indexed read, `Execute` and the
serving of one access, each said once. -/

namespace Sys2Proof.Machine

/-! ### The index guards -/

theorem ifByteExists_of_lt {j : Nat} (h : j < Config.CAP) (r : Result) : ifByteExists j r = r :=
  if_pos h

theorem ifBytesExist_of_le {n : Nat} (h : n ≤ Config.CAP) (r : Result) : ifBytesExist n r = r :=
  if_pos h

/-- If a guarded operation goes on, the byte exists and the operation is what was guarded. -/
theorem ifByteExists_eq_next {j : Nat} {r : Result} {t : State} (h : ifByteExists j r = .next t) :
    j < Config.CAP ∧ r = .next t := by
  unfold ifByteExists at h
  split at h
  · exact ⟨‹_›, h⟩
  · cases h

theorem ifBytesExist_eq_next {n : Nat} {r : Result} {t : State} (h : ifBytesExist n r = .next t) :
    n ≤ Config.CAP ∧ r = .next t := by
  unfold ifBytesExist at h
  split at h
  · exact ⟨‹_›, h⟩
  · cases h

/-! ### The indexed read -/

/-- An indexed read either faults `INDEX_RANGE` or writes `RES`, and nothing else. -/
theorem readIndexed_eq_next {m : Memory} {len : Nat} {idx : BitVec 16} {s t : State}
    (h : readIndexed m len idx s = .next t) :
    (len ≤ idx.toNat ∧ t = raiseFault .indexRange s) ∨
    (idx.toNat < len ∧ t = { s with res := Memory.read m idx.toNat }) := by
  unfold readIndexed at h
  split at h
  · cases h
    exact .inl ⟨‹_›, rfl⟩
  · obtain ⟨-, h⟩ := ifByteExists_eq_next h
    cases h
    exact .inr ⟨Nat.lt_of_not_le ‹_›, rfl⟩

theorem readIndexed_of_le {m : Memory} {len : Nat} {idx : BitVec 16} (s : State)
    (h : len ≤ idx.toNat) : readIndexed m len idx s = .next (raiseFault .indexRange s) :=
  if_pos h

theorem readIndexed_of_lt {m : Memory} {len : Nat} {idx : BitVec 16} (s : State)
    (h : idx.toNat < len) (hcap : len ≤ Config.CAP) :
    readIndexed m len idx s = .next { s with res := Memory.read m idx.toNat } := by
  unfold readIndexed indexValue
  rw [if_neg (Nat.not_le.2 h), ifByteExists_of_lt (Nat.lt_of_lt_of_le h hcap)]

/-! ### The length verdict -/

theorem verdictOf_zero : verdictOf 0 = .empty := rfl

theorem verdictOf_of_le {n : Nat} (h0 : 0 < n) (h : n ≤ 1024) : verdictOf n = .ok := by
  have hmax : ¬ n > Config.KEY_MAX := Nat.not_lt.2 h
  unfold verdictOf
  rw [if_neg (Nat.ne_of_gt h0), if_neg hmax]

theorem verdictOf_of_lt {n : Nat} (h : 1024 < n) : verdictOf n = .tooLong := by
  have hmax : n > Config.KEY_MAX := h
  unfold verdictOf
  rw [if_neg (by omega), if_pos hmax]

/-! ### Execute -/

/-- With no fault recorded a legal word runs its command. -/
theorem execute_command {w : Word} {i : Instr} {s : State} (he : s.err = none)
    (hd : decode w = .command i) : execute w s = exec i s := by
  simp [execute, he, hd]

/-- With no fault recorded an illegal word faults. -/
theorem execute_illegal {w : Word} {why : IllegalReason} {s : State} (he : s.err = none)
    (hd : decode w = .illegal why) : execute w s = .next (raiseFault .illegalCommand s) := by
  simp [execute, he, hd]

/-- While a fault is recorded `CLR_ERR` clears it and every other word is dropped. -/
theorem execute_faulted {w : Word} {s : State} (he : s.err ≠ none) :
    execute w s = .next (if w = clrErrWord then clearFault s else s) := by
  unfold execute
  rw [if_pos he]
  split <;> rfl

/-! ### One access -/

theorem ifAccessible_of_wellFormed {off : BitVec 6} {bits : Nat} (r : Result) (hb : bits = 32)
    (ha : offsetAligned off = true) : ifAccessible off bits r = r := by
  simp [ifAccessible, hb, ha]

/-- If an access is served, it is 32 bits wide and aligned. -/
theorem ifAccessible_eq_next {off : BitVec 6} {bits : Nat} {r : Result} {t : State}
    (h : ifAccessible off bits r = .next t) :
    bits = 32 ∧ offsetAligned off = true ∧ r = .next t := by
  unfold ifAccessible at h
  split_ifs at h with h₁ h₂
  exact ⟨not_not.1 h₁, by simpa using h₂, h⟩

/-- A write of `CMD` executes the word. -/
theorem serve_command (w : Word) (s : State) : serve (HostEvent.command w) s = execute w s := rfl

/-- A read of a named register answers its value and has no other effect. -/
theorem serve_rd (r : RegName) (s : State) :
    serve (HostEvent.rd r) s = .next { s with reads := s.reads ++ [busRead s r.offset] } := by
  cases r <;> rfl

/-- The value of a read of `RES`. -/
theorem busRead_res (s : State) : busRead s RegName.RES.offset = s.res.setWidth 32 := rfl

end Sys2Proof.Machine
end

