-- ==== Sys2Proof/Laws/PerInstr.lean ====
section
/-! SUPPORT. Per-instruction laws. Family `TableRow`: the word an instruction encodes to is selected
by the instruction's own row of the opcode table (30_encoding.md R75). -/

namespace Sys2Proof.Laws.TableRow

/-- The row of the instruction selects its word. -/
def Statement (i : Instr) : Prop := (rowOf i).selects (encode i) = true ∧ rowOf i ∈ opcodeTable

theorem nop : Statement .nop := by unfold Statement; decide
theorem clrErr : Statement .clrErr := by unfold Statement; decide
theorem ksClr : Statement .ksClr := by unfold Statement; decide
theorem ksPush (b : Byte) : Statement (.ksPush b) := by revert b; unfold Statement; decide
theorem kdParse : Statement .kdParse := by unfold Statement; decide
theorem kbClr : Statement .kbClr := by unfold Statement; decide
theorem kbPush (b : Byte) : Statement (.kbPush b) := by revert b; unfold Statement; decide
theorem kdValidate : Statement .kdValidate := by unfold Statement; decide
theorem engNew : Statement .engNew := by unfold Statement; decide
theorem msgEnc : Statement .msgEnc := by unfold Statement; decide
theorem msgDec : Statement .msgDec := by unfold Statement; decide
theorem msgEnd : Statement .msgEnd := by unfold Statement; decide
theorem xfer (d : Byte) : Statement (.xfer d) := by revert d; unfold Statement; decide

/-- The bits of a format-I word that its row's mask keeps. -/
theorem mask_encodeI (op : BitVec 8) (idx : BitVec 16) :
    encodeI op idx &&& 0xFF0000FF#32 = encodeN op := by
  apply BitVec.eq_of_getLsbD_eq
  intro j hj
  simp only [encodeI, encodeN, BitVec.getLsbD_and, BitVec.getLsbD_append]
  interval_cases j <;> simp

theorem kbRead (idx : BitVec 16) : Statement (.kbRead idx) :=
  ⟨by simp [OpcodeRow.selects, rowOf, encode, mask_encodeI]; decide, by simp [rowOf, opcodeTable]⟩

theorem keyRead (idx : BitVec 16) : Statement (.keyRead idx) :=
  ⟨by simp [OpcodeRow.selects, rowOf, encode, mask_encodeI]; decide, by simp [rowOf, opcodeTable]⟩

end Sys2Proof.Laws.TableRow
end

