-- ==== Sys2Proof/Laws/Step.lean ====
section
/-! SUPPORT. The laws of the step and of runs of host accesses. -/

namespace Sys2Proof.Machine

/-- With no access left the block is idle. -/
theorem step_idle {s : State} (h : s.inputs = []) : step s = .next s := by
  simp [step, serveNext, h]

/-- A step serves the next access. -/
theorem step_cons {s : State} {e : HostEvent} {rest : List HostEvent} (h : s.inputs = e :: rest) :
    step s = serve e { s with inputs := rest } := by
  simp [step, serveNext, h]

/-- What a step can do when it answers a next state: it was idle, or it read a register, wrote a
register, or met a reset. -/
theorem step_eq_next {s t : State} (h : step s = .next t) :
    (s.inputs = [] ∧ t = s) ∨
    ∃ e rest, s.inputs = e :: rest ∧
      ((∃ off, e = .read off 32 ∧ offsetAligned off = true ∧
          t = { s with inputs := rest, reads := s.reads ++ [busRead s off] }) ∨
       (∃ off v, e = .write off 32 v ∧ offsetAligned off = true ∧
          busWrite off v { s with inputs := rest } = .next t) ∨
       (e = .reset ∧ t = resetBlock { s with inputs := rest })) := by
  cases hi : s.inputs with
  | nil =>
    rw [step_idle hi] at h
    cases h
    exact .inl ⟨rfl, rfl⟩
  | cons e rest =>
    rw [step_cons hi] at h
    refine .inr ⟨e, rest, rfl, ?_⟩
    cases e with
    | read off bits =>
      obtain ⟨rfl, ha, h⟩ := ifAccessible_eq_next h
      cases h
      exact .inl ⟨off, rfl, ha, rfl⟩
    | write off bits v =>
      obtain ⟨rfl, ha, h⟩ := ifAccessible_eq_next h
      exact .inr (.inl ⟨off, v, rfl, ha, h⟩)
    | reset =>
      cases h
      exact .inr (.inr ⟨rfl, rfl⟩)

/-- What a register write can do. -/
theorem busWrite_eq_next {off : BitVec 6} {v : Word} {s t : State} (h : busWrite off v s = .next t) :
    (selectOf off ≠ 0#4 ∧ t = s) ∨
    (selectOf off = 0#4 ∧ s.err ≠ none ∧ t = if v = clrErrWord then clearFault s else s) ∨
    (selectOf off = 0#4 ∧ s.err = none ∧ (∃ why, decode v = .illegal why) ∧
      t = raiseFault .illegalCommand s) ∨
    (selectOf off = 0#4 ∧ s.err = none ∧ ∃ i, decode v = .command i ∧ exec i s = .next t) := by
  unfold busWrite at h
  by_cases hs : selectOf off = 0#4
  · rw [if_pos hs] at h
    by_cases he : s.err = none
    · cases hd : decode v with
      | command i =>
        rw [execute_command he hd] at h
        exact .inr (.inr (.inr ⟨hs, he, i, rfl, h⟩))
      | illegal why =>
        rw [execute_illegal he hd] at h
        cases h
        exact .inr (.inr (.inl ⟨hs, he, ⟨why, rfl⟩, rfl⟩))
    · rw [execute_faulted he] at h
      cases h
      exact .inr (.inl ⟨hs, he, rfl⟩)
  · rw [if_neg hs] at h
    cases h
    exact .inl ⟨hs, rfl⟩

/-! ### Runs -/

@[simp] theorem Result.andThen_next (s : State) (f : State → Result) :
    Result.andThen (.next s) f = f s := rfl

/-- The model's runs are the host's. -/
theorem core_run_eq_steps (k : Nat) (s : State) :
    Host.Core.run Sys2Proof.core k s = steps k s := by
  induction k generalizing s with
  | zero => rfl
  | succ k ih =>
    have go : ∀ r : Result, step s = r →
        Host.Core.run Sys2Proof.core (k + 1) s = steps (k + 1) s := by
      intro r hr
      have hr' : Sys2Proof.core.step s = r := hr
      unfold steps
      simp only [Host.Core.run]
      rw [hr', hr]
      cases r with
      | next s' => exact ih s'
      | fault r => rfl
      | refused r => rfl
    exact go _ rfl

/-- `j + k` steps are `j` steps and then `k`. -/
theorem steps_add (j k : Nat) (s : State) :
    steps (j + k) s = Result.andThen (steps j s) (steps k) := by
  induction j generalizing s with
  | zero => rw [Nat.zero_add]; rfl
  | succ j ih =>
    rw [Nat.succ_add_eq_add_succ, Nat.add_succ]
    unfold steps
    cases step s with
    | next s' => rw [Result.andThen_next, Result.andThen_next, ih]
    | fault q => rfl
    | refused q => rfl

/-- No command reads or writes the list of accesses. -/
theorem exec_inputs (i : Instr) (s : State) (es : List HostEvent) :
    exec i { s with inputs := es } =
      Result.andThen (exec i s) fun t => .next { t with inputs := es } := by
  cases i <;> simp only [exec, execNop, execClrErr, execKsClr, execKsPush, execKdParse, execKbClr,
    execKbPush, execKbRead, execKdValidate, execEngNew, execKeyRead, execMsgEnc, execMsgDec,
    execMsgEnd, execXfer, readIndexed, ifByteExists, ifBytesExist]
  all_goals (try split) <;> (try split) <;> (try split) <;> rfl

theorem execute_inputs (w : Word) (s : State) (es : List HostEvent) :
    execute w { s with inputs := es } =
      Result.andThen (execute w s) fun t => .next { t with inputs := es } := by
  unfold execute
  simp only
  split
  · split
    · rw [exec_inputs]
    · rfl
  · split
    · rfl
    · rw [exec_inputs]

/-- Serving an access neither reads nor writes the list of those still to come. -/
theorem serve_inputs (e : HostEvent) (s : State) (es : List HostEvent) :
    serve e { s with inputs := es } =
      Result.andThen (serve e s) fun t => .next { t with inputs := es } := by
  cases e with
  | reset => rfl
  | read off bits =>
    simp only [serve, ifAccessible]
    split <;> (try split) <;> rfl
  | write off bits v =>
    simp only [serve, ifAccessible, busWrite]
    split
    · rfl
    · split
      · rfl
      · split
        · rw [execute_inputs]
        · rfl

/-- A run serves its first access and goes on. -/
theorem runEvents_cons (e : HostEvent) (es : List HostEvent) (s : State) :
    runEvents (e :: es) s = Result.andThen (serve e s) (runEvents es) := by
  unfold runEvents
  rw [List.length_cons, steps, step_cons (s := { s with inputs := e :: es }) rfl]
  show Result.andThen (serve e { s with inputs := es }) (steps es.length) = _
  rw [serve_inputs]
  cases serve e s <;> rfl

theorem runEvents_nil (s : State) : runEvents [] s = .next { s with inputs := [] } := rfl

end Sys2Proof.Machine
end

