-- ==== Sys2Proof/Tests/Slice0.lean ====
section
/-! SUPPORT. Tests: expected results are taken from 95_test_vectors.md and from the formats of
30_encoding.md. Then one witness for every statement that has hypotheses. -/

open Sys2Proof Sys2Proof.Machine

namespace Sys2Proof.Tests

/-! ### Well-formedness smoke tests -/

/-- A byte literal above 255 and an index literal above 65535 are refused (30_encoding.md R79). -/
theorem test_literal_bounds :
    byteLiteral? 255 = some 0xFF#8 ∧ byteLiteral? 256 = none ∧
    indexLiteral? 65535 = some 0xFFFF#16 ∧ indexLiteral? 65536 = none := by decide

/-- 8-bit, 16-bit and 64-bit accesses and misaligned offsets are ill formed (20_memory.md R53). -/
theorem test_illformed_accesses :
    HostEvent.wellFormed (.read 0x04#6 8) = false ∧ HostEvent.wellFormed (.read 0x04#6 16) = false ∧
    HostEvent.wellFormed (.write 0x00#6 64 0#32) = false ∧
    HostEvent.wellFormed (.read 0x05#6 32) = false ∧
    HostEvent.wellFormed (.write 0x02#6 32 0#32) = false ∧
    HostEvent.wellFormed (.write 0x3C#6 32 0#32) = true ∧ HostEvent.wellFormed .reset = true := by
  decide

/-- A step refuses them by name. -/
theorem test_illformed_accesses_refused :
    step { State.reset with inputs := [.read 0x04#6 8] } = .refused .accessWidth ∧
    step { State.reset with inputs := [.write 0x02#6 32 0#32] } = .refused .misalignedOffset :=
  ⟨rfl, rfl⟩

/-! ### Decoding and encoding -/

/-- The words of format N, bits [31:8] zero (30_encoding.md R72, R75). -/
theorem test_decode_formatN :
    decode 0x00000000#32 = .command .nop ∧ decode 0x00000001#32 = .command .clrErr ∧
    decode 0x00000010#32 = .command .ksClr ∧ decode 0x00000012#32 = .command .kdParse ∧
    decode 0x00000018#32 = .command .kbClr ∧ decode 0x0000001B#32 = .command .kdValidate ∧
    decode 0x00000020#32 = .command .engNew ∧ decode 0x00000030#32 = .command .msgEnc ∧
    decode 0x00000031#32 = .command .msgDec ∧ decode 0x00000032#32 = .command .msgEnd := by decide

/-- The words of format B, the byte in [15:8] (30_encoding.md R74, R75). -/
theorem test_decode_formatB :
    decode 0b00000000000000000011001000010001#32 = .command (.ksPush 0x32#8) ∧
    decode 0b00000000000000000100000100011001#32 = .command (.kbPush 0x41#8) ∧
    decode 0b00000000000000001000000100110011#32 = .command (.xfer 0x81#8) := by decide

/-- The words of format I, the index in [23:8] (30_encoding.md R73, R75). -/
theorem test_decode_formatI :
    decode 0b00000000111111110000000100011010#32 = .command (.kbRead 0xFF01#16) ∧
    decode 0b00000000100000000000001000100001#32 = .command (.keyRead 0x8002#16) := by decide

/-- The illegal words of 95_test_vectors.md 2.6. -/
theorem test_decode_illegal :
    decode 0x00000100#32 = .illegal .reservedBits ∧
    decode 0x00000002#32 = .illegal .unassignedOpcode ∧
    decode 0x000000FF#32 = .illegal .unassignedOpcode ∧
    decode 0x00010011#32 = .illegal .reservedBits ∧
    decode 0x0100001A#32 = .illegal .reservedBits ∧
    decode 0x00000101#32 = .illegal .reservedBits := by decide

/-- The words of 95_test_vectors.md, written by the encoder. -/
theorem test_encode :
    encode (.ksPush 0x32#8) = 0x00003211#32 ∧ encode (.kbRead 0xFFFF#16) = 0x00FFFF1A#32 ∧
    encode (.keyRead 1#16) = 0x00000121#32 ∧ encode (.xfer 0xFF#8) = 0x0000FF33#32 ∧
    encode .msgDec = 0x00000031#32 := by decide

/-- Rows of the opcode table, decoded and run as the first command after reset. -/
theorem test_table_words :
    decodeTableWord 32 0x11 = some (.ksPush 0#8) ∧ decodeTableWord 8 0x21 = some (.keyRead 0#16) ∧
    decodeTableWord 32 0x10011 = none ∧
    (step (State.reset.withFetchWord 32 0x4119) = .next { State.reset with
      kb := [(0, 0x41#8)], kblen := 1 }) := ⟨by decide, by decide, by decide, rfl⟩

/-! ### The assembler (30_encoding.md R79, R80) -/

theorem test_assemble_command_lines :
    assembleLine "XFER 0x41 ; a byte".toList = some [HostEvent.command 0x00004133#32] ∧
    assembleLine "KB_PUSH 'A'".toList = some [HostEvent.command 0x00004119#32] ∧
    assembleLine "KEY_READ 1".toList = some [HostEvent.command 0x00000121#32] ∧
    assembleLine ".word 0x00000101".toList = some [HostEvent.command 0x00000101#32] ∧
    assembleLine "RD STATUS".toList = some [.read 0x04#6 32] ∧
    assembleLine "XFER 256".toList = none := by decide

theorem test_assemble_pseudo_lines :
    assembleLine "LOADKEY \"0\"".toList = some [HostEvent.command 0x00000010#32,
      HostEvent.command 0x00003011#32, HostEvent.command 0x00000012#32,
      HostEvent.command 0x0000001B#32] ∧
    assembleLine "ENC 0x10, 255".toList = some [HostEvent.command 0x00000030#32,
      HostEvent.command 0x00001033#32, HostEvent.command 0x0000FF33#32,
      HostEvent.command 0x00000032#32] ∧
    assembleLine "KB_BYTES".toList = some [HostEvent.command 0x00000018#32] := by decide

/-! ### One command on a small state -/

/-- The state one step after the host writes `w` to `CMD`. -/
def afterWord (w : Word) (s : State) : Option State :=
  match step (placeCommand w s) with
  | .next t => some t
  | .fault _ => none
  | .refused _ => none

/-- A state with `KS` and `KB` loaded and a key bound. -/
def loaded (ks kb key : List Byte) : State :=
  { State.reset with
    ks := Memory.writeFrom [] 0 ks, kslen := ks.length
    kb := Memory.writeFrom [] 0 kb, kblen := kb.length
    key := Memory.writeFrom [] 0 key, klen := key.length }

/-- 95_test_vectors.md 2.6: `NOP` changes nothing; with a fault recorded it is dropped. -/
theorem test_nop :
    afterWord 0x00000000#32 State.reset = some State.reset ∧
    (afterWord 0x00000000#32 { State.reset with err := some .indexRange }).map State.err =
      some (some .indexRange) := by decide

/-- 95_test_vectors.md 2.6, and drop mode for a word that is not exactly `CLR_ERR`. -/
theorem test_clr_err :
    (afterWord 0x00000001#32 { State.reset with err := some .moduloByZero }).map State.err =
      some none ∧
    (afterWord 0x00000101#32 { State.reset with err := some .illegalCommand }).map State.err =
      some (some .illegalCommand) := by decide

/-- 95_test_vectors.md 2.6: an illegal word with no fault recorded. -/
theorem test_illegal_word :
    (afterWord 0x00010011#32 State.reset).map (fun t => (t.err, t.kslen, t.faultLog)) =
      some (some .illegalCommand, 0, [.illegalCommand]) := by decide

/-- 95_test_vectors.md 2.2. -/
theorem test_ks_clr :
    (afterWord 0x00000010#32 (loaded [1, 2, 3] [] [])).map (fun t => (t.kslen, t.specBytes)) =
      some (0, []) := by decide

theorem test_ks_push :
    (afterWord 0x00003211#32 State.reset).map State.specBytes = some [0x32#8] := by decide

theorem test_ks_push_full :
    (afterWord 0x00003311#32 { State.reset with kslen := 4096 }).map
      (fun t => (t.err, t.kslen, t.ks)) = some (some .ksOverflow, 4096, []) := by decide

/-- 95_test_vectors.md 2.1, numeric: "256" and "18446744073709551616". -/
theorem test_kd_parse_numeric :
    (afterWord 0x00000012#32 (loaded [0x32, 0x35, 0x36] [9, 9, 9] [])).map
      (fun t => (t.keyBytes, t.kdnum, t.vres)) = some ([0x01#8, 0x00#8], true, .none) ∧
    parseBytes [0x31, 0x38, 0x34, 0x34, 0x36, 0x37, 0x34, 0x34, 0x30, 0x37, 0x33, 0x37, 0x30, 0x39,
      0x35, 0x35, 0x31, 0x36, 0x31, 0x36] = [1, 0, 0, 0, 0, 0, 0, 0, 0] := by decide

/-- 95_test_vectors.md 2.1: the zero value, text mode, and the empty specification. -/
theorem test_kd_parse_text :
    parseBytes [0x30, 0x30] = [] ∧ parseBytes [0x31, 0x32, 0x61] = [0x31, 0x32, 0x61] ∧
    isDec [0x30, 0x30] = true ∧ isDec [] = false ∧
    (afterWord 0x00000012#32 (loaded [0x2B, 0x35] [] [])).map (fun t => (t.keyBytes, t.kdnum)) =
      some ([0x2B#8, 0x35#8], false) := by decide

/-- 95_test_vectors.md 2.1, "1000", by the byte-serial algorithm (40_key_derivation.md R103). -/
theorem test_serial_algorithm : decToBytesSerial [0x31, 0x30, 0x30, 0x30] = [0x03, 0xE8] := by decide

/-- 95_test_vectors.md 2.2. -/
theorem test_kb_clr :
    (afterWord 0x00000018#32 { loaded [] [1, 2] [3] with vres := .ok }).map
      (fun t => (t.kblen, t.vres, t.engineKey)) = some (0, .none, [3#8]) := by decide

theorem test_kb_push :
    (afterWord 0x00004119#32 { State.reset with vres := .ok }).map
      (fun t => (t.keyBytes, t.vres)) = some ([0x41#8], .none) := by decide

theorem test_kb_push_full :
    (afterWord 0x00000019#32 { State.reset with kblen := 4096, vres := .tooLong }).map
      (fun t => (t.err, t.kblen, t.vres)) = some (some .kbOverflow, 4096, .tooLong) := by decide

theorem test_kb_read :
    (afterWord 0x0000011A#32 { loaded [] [1, 0] [] with res := 7 }).map (fun t => (t.res, t.err)) =
      some (0#8, none) ∧
    (afterWord 0x0000021A#32 { loaded [] [1, 0] [] with res := 7 }).map (fun t => (t.res, t.err)) =
      some (7#8, some .indexRange) := by decide

/-- 95_test_vectors.md 2.3. -/
theorem test_kd_validate :
    [0, 1, 1024, 1025, 4096].map (fun n =>
      (afterWord 0x0000001B#32 { State.reset with kblen := n }).map State.vres) =
      [some .empty, some .ok, some .ok, some .tooLong, some .tooLong] := by decide

/-- 95_test_vectors.md 2.5: a new key closes the message and restarts the index. -/
theorem test_eng_new :
    (afterWord 0x00000020#32
      { loaded [] [1, 2, 3] [8, 9] with active := true, kidx := 1, pos := 5#32 }).map
      (fun t => (t.engineKey, t.kidx, t.pos, t.active)) =
      some ([1#8, 2#8, 3#8], 0, 0#32, false) := by decide

theorem test_key_read :
    (afterWord 0x00000121#32 (loaded [] [] [0x41, 0x42])).map State.res = some 0x42#8 ∧
    (afterWord 0x00000221#32 (loaded [] [] [0x41, 0x42])).map State.err =
      some (some .indexRange) ∧
    (afterWord 0x00000021#32 State.reset).map State.err = some (some .indexRange) := by decide

theorem test_msg_enc :
    (afterWord 0x00000030#32 { loaded [] [] [1, 2] with mode := .decrypt, kidx := 1, pos := 3#32 }).map
      (fun t => (t.active, t.mode, t.kidx, t.pos)) = some (true, .encrypt, 0, 0#32) := by decide

theorem test_msg_dec :
    (afterWord 0x00000031#32 { loaded [] [] [1, 2] with active := true, kidx := 1 }).map
      (fun t => (t.active, t.mode, t.kidx, t.pos)) = some (true, .decrypt, 0, 0#32) := by decide

theorem test_msg_end :
    afterWord 0x00000032#32 State.reset = some State.reset ∧
    (afterWord 0x00000032#32 { State.reset with active := true }).map State.active =
      some false := by decide

/-- 95_test_vectors.md Part 3, P1 lines 11 and 15: the last key byte, both modes. -/
theorem test_xfer :
    (afterWord 0x00000333#32
      { loaded [] [] [0x41, 0x42] with active := true, kidx := 1, pos := 3#32 }).map
      (fun t => (t.res, t.kidx, t.pos)) = some (0x45#8, 0, 4#32) ∧
    (afterWord 0x00004333#32
      { loaded [] [] [0x41, 0x42] with active := true, mode := .decrypt, kidx := 1, pos := 1#32 }).map
      (fun t => (t.res, t.kidx, t.pos)) = some (0x01#8, 0, 2#32) := by decide

/-- 95_test_vectors.md 2.5, message-state vectors: the two faults and their priority. -/
theorem test_xfer_faults :
    (afterWord 0x00000033#32 State.reset).map (fun t => (t.err, t.res)) =
      some (some .noMessage, 0#8) ∧
    (afterWord 0x00000033#32 { State.reset with active := true, res := 7 }).map
      (fun t => (t.err, t.active, t.res)) = some (some .moduloByZero, false, 7#8) := by decide

/-- 95_test_vectors.md 2.4. -/
theorem test_modular_adder :
    add8 0x7F 0x80 = 0xFF ∧ add8 0xFF 0xFF = 0xFE ∧ add8 0x80 0x80 = 0x00 ∧
    sub8 0x00 0x01 = 0xFF ∧ sub8 0x7F 0x80 = 0xFF ∧ sub8 0xFE 0xFF = 0xFF := by decide

/-! ### Register reads (95_test_vectors.md 2.6) -/

theorem test_register_reads :
    busRead State.reset 0x04#6 = 0#32 ∧ busRead State.reset 0x20#6 = 0x00001000#32 ∧
    busRead State.reset 0x24#6 = 0x00000001#32 ∧ busRead State.reset 0x28#6 = 0#32 ∧
    busRead { State.reset with vres := .empty, err := some .moduloByZero, kdnum := true } 0x04#6 =
      0x0002020C#32 ∧
    busRead { State.reset with vres := .ok, mode := .decrypt } 0x04#6 = 0x00010002#32 := by decide

/-- 70_reset_and_hazards.md R201: `addr[5:2]` is the register offset / 4. -/
theorem test_port_sample :
    PortInputs.event? ⟨true, true, false, 1#4, 0#32⟩ = some (HostEvent.rd .STATUS) ∧
    PortInputs.event? ⟨true, true, true, 0#4, 0x30#32⟩ = some (HostEvent.command 0x30#32) ∧
    PortInputs.event? ⟨true, false, false, 1#4, 0#32⟩ = none ∧
    PortInputs.event? ⟨false, true, false, 1#4, 0#32⟩ = some .reset := by decide

/-! ### Witnesses: states and operands that meet the hypotheses of the statements -/

/-- The invariant of a concrete state, part by part. -/
theorem inv_of {s : State} (k : Nat)
    (h₁ : s.kslen ≤ Config.CAP ∧ s.kblen ≤ Config.CAP ∧ s.klen ≤ Config.CAP)
    (h₂ : (s.klen = 0 → s.kidx = 0) ∧ (0 < s.klen → s.kidx < s.klen))
    (h₃ : s.pos = BitVec.ofNat 32 k ∧ s.kidx = k % s.klen)
    (h₄ : s.vres = .none ∨ s.vres = verdictOf s.kblen)
    (h₅ : s.err = none ∨ s.faultLog.getLast? = s.err)
    (h₆ : Memory.wf s.ks ∧ Memory.wf s.kb ∧ Memory.wf s.key)
    (h₇ : Memory.inCap s.ks ∧ Memory.inCap s.kb ∧ Memory.inCap s.key) : s.Inv where
  kslen_le := h₁.1
  kblen_le := h₁.2.1
  klen_le := h₁.2.2
  kidx_zero := h₂.1
  kidx_lt := h₂.2
  position := ⟨k, h₃⟩
  verdict_current := h₄
  err_logged := fun c hc => by
    rcases h₅ with h | h
    · rw [h] at hc; cases hc
    · rw [h, hc]
  ks_wf := h₆.1
  kb_wf := h₆.2.1
  key_wf := h₆.2.2
  ks_inCap := h₇.1
  kb_inCap := h₇.2.1
  key_inCap := h₇.2.2

/-- "256" in KS, the key "AB" bound and in KB, one byte of a message transformed. -/
def running : State :=
  { loaded [0x32, 0x35, 0x36] [0x41, 0x42] [0x41, 0x42] with
    vres := .ok, active := true, kidx := 1, pos := 1#32, res := 0x41 }

theorem running_inv : running.Inv :=
  inv_of 1 (by decide) (by decide) (by decide) (by decide) (by decide) (by decide) (by decide)

theorem reset_inv : State.reset.Inv :=
  inv_of 0 (by decide) (by decide) (by decide) (by decide) (by decide) (by decide) (by decide)

/-- The lengths at given values, nothing bound. -/
def sized (n : Nat) : State := { State.reset with kslen := n, kblen := n }

theorem sized_inv {n : Nat} (h : n ≤ 4096) : (sized n).Inv :=
  inv_of 0 ⟨h, h, Nat.zero_le _⟩ ⟨fun _ => rfl, fun h => h⟩ ⟨rfl, rfl⟩ (.inl rfl) (.inl rfl)
    ⟨reset_inv.ks_wf, reset_inv.kb_wf, reset_inv.key_wf⟩
    ⟨reset_inv.ks_inCap, reset_inv.kb_inCap, reset_inv.key_inCap⟩

/-- `running` with an `INDEX_RANGE` fault recorded. -/
def faulted : State := { running with err := some .indexRange, faultLog := [.indexRange] }

theorem faulted_inv : faulted.Inv :=
  inv_of 1 (by decide) (by decide) (by decide) (by decide) (by decide) (by decide) (by decide)

/-- An open message with a zero-length key. -/
def openEmpty : State := { State.reset with active := true }

theorem openEmpty_inv : openEmpty.Inv :=
  inv_of 0 (by decide) (by decide) (by decide) (by decide) (by decide) (by decide) (by decide)

theorem witness_ResetEventRestoresResetValues :
    { running with inputs := [.reset, .reset] }.inputs = HostEvent.reset :: [.reset] := rfl

theorem witness_StepKeepsInvariant :
    ∃ s t : State, s.Inv ∧ step s = .next t ∧ t.kidx = 0 :=
  ⟨{ running with inputs := [HostEvent.command 0x00000133#32] }, _,
    { running_inv with }, rfl, rfl⟩

theorem witness_ReachableStatesMeetTheInvariants :
    ∃ s : State, s.Reachable ∧ s.kblen = 1 :=
  ⟨_, .step (.host [HostEvent.command 0x00004119#32] .reset) rfl, rfl⟩

theorem witness_WellFormedAccessCompletes :
    running.Inv ∧ HostEvent.wellFormed (.read 0x3C#6 32) = true ∧
    HostEvent.wellFormed (.write 0x00#6 32 0xFFFFFFFF#32) = true ∧
    HostEvent.wellFormed .reset = true := ⟨running_inv, by decide, by decide, by decide⟩

theorem witness_IllFormedAccessIsRefused :
    (31 ≠ 32 ∨ (0x3C#6).toNat % 4 ≠ 0) ∧ (33 ≠ 32 ∨ (0x00#6).toNat % 4 ≠ 0) ∧
    (32 ≠ 32 ∨ (0x01#6).toNat % 4 ≠ 0) ∧ (32 ≠ 32 ∨ (0x3F#6).toNat % 4 ≠ 0) := by decide

theorem witness_LegalWordIsTheWordOfItsCommand :
    decode 0x00FFFF21#32 = .command (.keyRead 0xFFFF#16) := by decide

theorem witness_DecodeFollowsTheOpcodeMap :
    decode 0x0000FF33#32 = .command (.xfer 0xFF#8) ∧
    (⟨0x00000033#32, 0xFFFF00FF#32⟩ : OpcodeRow) ∈ opcodeTable ∧
    0x0000FF33#32 &&& 0xFFFF00FF#32 = 0x00000033#32 := by decide

/-- The ends of every range of illegal opcodes, and the lowest and highest reserved bit of every
format (30_encoding.md R76). -/
theorem witness_IllegalWordsAreThoseOfTheRule :
    ([0x02, 0x0F, 0x13, 0x17, 0x1C, 0x1F, 0x22, 0x2F, 0x34, 0xFF].all fun op =>
      decide (decode (BitVec.ofNat 32 op) = .illegal .unassignedOpcode)) = true ∧
    ([0x00000100#32, 0x80000032#32, 0x00010011#32, 0x80000033#32, 0x0100001A#32,
      0x80000021#32].all fun w => decide (decode w = .illegal .reservedBits)) = true ∧
    { running with inputs := [HostEvent.command 0xFF#32] }.err = none ∧
    { faulted with inputs := [HostEvent.command 0xFF#32] }.err ≠ none := by decide

theorem witness_StepRunsTheDecodedCommand :
    { running with inputs := [HostEvent.command 0x00000033#32] }.err = none ∧
    decode 0x00000033#32 = .command (.xfer 0#8) ∧
    decode 0x00010033#32 = .illegal .reservedBits ∧
    { faulted with inputs := [HostEvent.command 0x00000001#32] }.err ≠ none := by decide

/-- The lowest and the highest word with a reserved bit, of both opcodes. -/
theorem witness_ControlCommandsDoWhatTheySay :
    ([0x00000100#32, 0x00000101#32, 0xFFFFFF00#32, 0xFFFFFF01#32].all fun w =>
      decide (w.toNat % 256 ≤ 0x01 ∧ w.toNat / 256 ≠ 0)) = true ∧
    running.err = none ∧ faulted.err ≠ none := by decide

theorem witness_DropModeDropsEveryOtherWord :
    faulted.err ≠ none ∧ (0x00000001#32 : Word) = 0x00000001#32 ∧
    (0x00000101#32 : Word) ≠ 0x00000001#32 ∧ (0x04#6).toNat % 4 = 0 := by decide

theorem witness_RegisterReadsReturnTheirFields :
    faulted.Inv ∧ (sized 4096).Inv ∧
    (0x28#6).toNat % 4 = 0 ∧ 0x28 ≤ (0x28#6).toNat ∧ (0x3C#6).toNat % 4 = 0 :=
  ⟨faulted_inv, sized_inv (by decide), by decide, by decide, by decide⟩

theorem witness_HostAccessesActAsTheRuleSays :
    (0x00#6).toNat % 4 = 0 ∧ (0x04#6).toNat % 4 = 0 ∧ (0x04#6).toNat ≠ 0 ∧
    (0x3C#6).toNat % 4 = 0 := by decide

theorem witness_PortSampleMakesItsAccess :
    (PortInputs.event? ⟨true, true, false, 15#4, 0#32⟩).toList = [.read 0x3C#6 32] ∧
    (PortInputs.event? ⟨true, true, true, 0#4, 1#32⟩).toList = [.write 0x00#6 32 1#32] := by decide

theorem witness_FaultsAreRaisedExactlyForTheirCauses :
    (sized 4095).Inv ∧ (sized 4096).Inv ∧ running.Inv ∧ openEmpty.Inv ∧
    (sized 4096).err = none ∧ running.err = none ∧ openEmpty.err = none :=
  ⟨sized_inv (by decide), sized_inv (by decide), running_inv, openEmpty_inv, rfl, rfl, rfl⟩

theorem witness_FaultsArePrecise :
    faultOf (.ksPush 0) (sized 4096) = some .ksOverflow ∧
    faultOf (.kbPush 0) (sized 4096) = some .kbOverflow ∧
    faultOf (.kbRead 2#16) running = some .indexRange ∧
    faultOf (.keyRead 2#16) running = some .indexRange ∧
    faultOf (.xfer 0) State.reset = some .noMessage ∧
    faultOf (.xfer 0) openEmpty = some .moduloByZero ∧
    decode 0x02#32 = .illegal .unassignedOpcode := by decide

theorem witness_RecordedFaultStaysUntilCleared :
    (∃ t, step { faulted with inputs := [HostEvent.command 0x00000133#32] } = .next t ∧
      t.err = some .indexRange) ∧
    (∃ t, step { faulted with inputs := [HostEvent.command 0x00000001#32] } = .next t ∧
      t.err = none) ∧
    (∃ t, step { faulted with inputs := [.reset] } = .next t ∧ t.err = none) :=
  ⟨⟨_, rfl, rfl⟩, ⟨_, rfl, rfl⟩, ⟨_, rfl, rfl⟩⟩

theorem witness_FaultLogRecordsEveryFault :
    (∃ t, step { faulted with inputs := [.reset] } = .next t ∧ t.faultLog = [.indexRange]) ∧
    (∃ t, step { running with inputs := [HostEvent.command 0x0000021A#32] } = .next t ∧
      t.faultLog = [.indexRange]) := ⟨⟨_, rfl, rfl⟩, ⟨_, rfl, rfl⟩⟩

theorem witness_RunAfterFaultChangesNothing :
    faulted.err ≠ none ∧
    (∀ e ∈ [HostEvent.rd .STATUS, HostEvent.command 0x00000133#32, .write 0x3C#6 32 1#32],
      e.wellFormed = true ∧ e ≠ .reset ∧ e ≠ HostEvent.command 0x00000001#32) ∧
    valuesRead faulted [HostEvent.rd .STATUS, HostEvent.command 0x00000133#32, HostEvent.rd .RES] =
      [0x00010609#32, 0x00000041#32] := by decide

theorem witness_KsPushAppendsOneByte :
    (sized 0).Inv ∧ (sized 4095).Inv ∧ (sized 4095).kslen < Config.CAP ∧
    (sized 4096).Inv ∧ (sized 4096).kslen = Config.CAP :=
  ⟨sized_inv (by decide), sized_inv (by decide), by decide, sized_inv (by decide), by decide⟩

theorem witness_KbPushAppendsOneByte :
    (sized 0).Inv ∧ (sized 4095).Inv ∧ (sized 4095).kblen < Config.CAP ∧
    (sized 4096).Inv ∧ (sized 4096).kblen = Config.CAP :=
  ⟨sized_inv (by decide), sized_inv (by decide), by decide, sized_inv (by decide), by decide⟩

/-- Numeric mode and text mode. -/
theorem witness_KdParseWritesTheParsedKey :
    running.Inv ∧ isDec running.specBytes = true ∧
    State.reset.Inv ∧ isDec State.reset.specBytes = false :=
  ⟨running_inv, by decide, reset_inv, by decide⟩

/-- A positive value and a zero value. -/
theorem witness_DecToBytesIsTheMinimalBigEndianValue :
    isDec [0x32#8, 0x35#8, 0x36#8] = true ∧ 0 < decValue [0x32#8, 0x35#8, 0x36#8] ∧
    isDec [0x30#8, 0x30#8] = true ∧ decValue [0x30#8, 0x30#8] = 0 := by decide

theorem witness_ParsedKeyIsNoLongerThanTheSpecification :
    isDec [0x30#8] = true ∧ isDec [] = false ∧ running.Inv ∧
    ∃ t, exec .kdParse running = .next t ∧ t.kblen = 2 :=
  ⟨by decide, by decide, running_inv, _, rfl, by decide⟩

theorem witness_SerialAlgorithmComputesDecToBytes :
    isDec [0x30#8] = true ∧ isDec [0x39#8, 0x39#8, 0x39#8] = true := by decide

theorem length_utf8_replicate (n : Nat) : (utf8 (List.replicate n 'a')).length = n := by
  induction n with
  | zero => rfl
  | succ n ih =>
    have h : utf8 (List.replicate (n + 1) 'a') = 0x61#8 :: utf8 (List.replicate n 'a') := rfl
    rw [h, List.length_cons, ih]

/-- The empty text, a digit text and a text that fills `KS`. -/
theorem witness_ParseCommandsComputeParseKey :
    running.Inv ∧ running.err = none ∧ (utf8 []).length ≤ Config.CAP ∧
    (utf8 ['2', '5', '6']).length ≤ Config.CAP ∧
    (utf8 (List.replicate 4096 'a')).length = Config.CAP :=
  ⟨running_inv, rfl, by decide, by decide, length_utf8_replicate 4096⟩

/-- The last byte below the length, and the first index that is not. -/
theorem witness_KbReadReadsOneByteIntoRes :
    running.Inv ∧ (1#16).toNat < running.keyBytes.length ∧ running.kblen ≤ (2#16).toNat :=
  ⟨running_inv, by decide, by decide⟩

theorem witness_KdValidateRecordsTheLengthVerdict :
    (sized 0).kblen = 0 ∧ (1 ≤ (sized 1).kblen ∧ (sized 1).kblen ≤ 1024) ∧
    (1 ≤ (sized 1024).kblen ∧ (sized 1024).kblen ≤ 1024) ∧ 1024 < (sized 1025).kblen := by decide

theorem witness_ValidateCommandsComputeValidateKey :
    running.Inv ∧ running.err = none ∧ ([] : List Byte).length ≤ Config.CAP ∧
    (List.replicate 4096 (0x39 : Byte)).length ≤ Config.CAP :=
  ⟨running_inv, rfl, by decide, by rw [List.length_replicate]; decide⟩

theorem witness_NoCommandReadsVresOrKdnum :
    ∃ t, exec (.xfer 1) running = .next t ∧ t.res = 0x43#8 := ⟨_, rfl, by decide⟩

/-- A command of each clause changes its state. -/
theorem witness_KeyDerivationStateHasOnlyItsWriters :
    (∃ t, exec (.ksPush 1) running = .next t ∧ t.kslen ≠ running.kslen) ∧
    (∃ t, exec .kdParse running = .next t ∧ t.kb ≠ running.kb) ∧
    (∃ t, exec .kdParse running = .next t ∧ t.kdnum ≠ running.kdnum) ∧
    (∃ t, exec .kbClr running = .next t ∧ t.vres ≠ running.vres) :=
  ⟨⟨_, rfl, by decide⟩, ⟨_, rfl, by decide⟩, ⟨_, rfl, by decide⟩, ⟨_, rfl, by decide⟩⟩

theorem witness_EngineStateHasOnlyItsWriters :
    (∃ t, exec .engNew (loaded [] [5] []) = .next t ∧ t.klen ≠ 0) ∧
    (∃ t, exec (.xfer 1) running = .next t ∧ t.kidx ≠ running.kidx) ∧
    (∃ t, exec (.xfer 1) openEmpty = .next t ∧ t.active ≠ openEmpty.active) ∧
    (∃ t, exec .msgDec running = .next t ∧ t.mode ≠ running.mode) ∧
    (∃ t, exec (.keyRead 1) running = .next t ∧ t.res ≠ running.res) ∧
    (∃ t, exec (.keyRead 2) running = .next t ∧ t.err ≠ running.err) :=
  ⟨⟨_, rfl, by decide⟩, ⟨_, rfl, by decide⟩, ⟨_, rfl, by decide⟩, ⟨_, rfl, by decide⟩,
    ⟨_, rfl, by decide⟩, ⟨_, rfl, by decide⟩⟩

theorem witness_EngNewBindsTheKeyBytes :
    running.Inv ∧ State.reset.Inv ∧ (sized 4096).Inv :=
  ⟨running_inv, reset_inv, sized_inv (by decide)⟩

theorem witness_KeyReadReadsOneByteIntoRes :
    running.Inv ∧ (1#16).toNat < running.engineKey.length ∧ running.klen ≤ (2#16).toNat :=
  ⟨running_inv, by decide, by decide⟩

/-- The three cases; `running` stands at its last key byte. -/
theorem witness_XferTransformsOneByte :
    (running.Inv ∧ running.active = true ∧ 0 < running.klen ∧ running.kidx + 1 = running.klen) ∧
    (State.reset.Inv ∧ State.reset.active = false) ∧
    (openEmpty.Inv ∧ openEmpty.active = true ∧ openEmpty.klen = 0) :=
  ⟨⟨running_inv, by decide⟩, ⟨reset_inv, by decide⟩, ⟨openEmpty_inv, by decide⟩⟩

theorem witness_KeyIndexIsDataIndexModuloLength :
    running.Inv ∧ running.err = none ∧ 0 < running.klen := ⟨running_inv, rfl, by decide⟩

theorem witness_MessageComputesTheSourceTransform :
    running.Inv ∧ running.err = none ∧ 0 < running.klen := ⟨running_inv, rfl, by decide⟩

theorem witness_OppositeMessageRestoresTheData :
    running.Inv ∧ running.err = none ∧ 0 < running.klen ∧ Mode.decrypt ≠ Mode.encrypt :=
  ⟨running_inv, rfl, by decide, by decide⟩

/-- 95_test_vectors.md 2.5: the key 01 02 03 and the key 01 02 03 01 02 03. -/
theorem witness_RepeatedKeyGivesTheSameOutputs :
    (loaded [] [1, 2, 3] []).Inv ∧ (loaded [] [1, 2, 3, 1, 2, 3] []).Inv ∧
    (loaded [] [1, 2, 3] []).err = none ∧ 1 ≤ 2 ∧ 0 < (loaded [] [1, 2, 3] []).kblen ∧
    (loaded [] [1, 2, 3, 1, 2, 3] []).keyBytes =
      (List.replicate 2 (loaded [] [1, 2, 3] []).keyBytes).flatten :=
  ⟨inv_of 0 (by decide) (by decide) (by decide) (by decide) (by decide) (by decide) (by decide),
    inv_of 0 (by decide) (by decide) (by decide) (by decide) (by decide) (by decide) (by decide),
    rfl, by decide, by decide, by decide⟩

theorem witness_EmptyMessageAndZeroLengthKey :
    running.Inv ∧ running.err = none ∧ openEmpty.Inv ∧ openEmpty.err = none ∧ openEmpty.klen = 0 :=
  ⟨running_inv, rfl, openEmpty_inv, rfl, rfl⟩

theorem witness_ListedCommandsAreIdempotent :
    running.Inv ∧ idempotentCommand .kdParse = true ∧
    ∃ t, execute (encode .kdParse) running = .next t ∧ t.kblen = 2 :=
  ⟨running_inv, rfl, _, rfl, by decide⟩

/-- Two states that differ in a byte of `KB` beyond `KBLEN`. -/
theorem witness_HiddenBytesNeverShow :
    running.Inv ∧ { running with kb := Memory.write running.kb 2 7 }.Inv ∧
    SameVisible running { running with kb := Memory.write running.kb 2 7 } ∧
    Memory.write running.kb 2 7 ≠ running.kb :=
  ⟨running_inv,
    inv_of 1 (by decide) (by decide) (by decide) (by decide) (by decide) (by decide) (by decide),
    { kslen := rfl, kblen := rfl, klen := rfl, kdnum := rfl, vres := rfl, kidx := rfl,
      active := rfl, mode := rfl, pos := rfl, res := rfl, err := rfl, faultLog := rfl,
      inputs := rfl, reads := rfl, ks := fun _ _ => rfl, key := fun _ _ => rfl,
      kb := fun j hj => by
        show Memory.read running.kb j = Memory.read (Memory.write running.kb 2 7) j
        rw [Memory.read_write running_inv.kb_wf, if_neg (by have : j < 2 := hj; omega)] },
    by decide⟩

/-- The numeric key text "256". -/
theorem witness_BootOrderComputesTheSourceFlow :
    running.Inv ∧ running.err = none ∧ (utf8 ['2', '5', '6']).length ≤ Config.CAP ∧
    sourceValidateKey (sourceParseKey ['2', '5', '6']) = none := by
  refine ⟨running_inv, rfl, by decide, ?_⟩
  have h : sourceParseKey ['2', '5', '6'] = [1#8, 0#8] := by
    simp [sourceParseKey, minimalBigEndian, textValue]
  rw [h]; decide

/-- The shortest key, and the longest that passes. -/
theorem witness_BootOrderWithARawKeyComputesTheSourceFlow :
    running.Inv ∧ running.err = none ∧ sourceValidateKey [0x41#8] = none ∧
    (List.replicate 1024 (0x41 : Byte)).length ≤ Config.CAP ∧
    sourceValidateKey (List.replicate 1024 (0x41 : Byte)) = none :=
  ⟨running_inv, rfl, by decide, by rw [List.length_replicate]; decide,
    by unfold sourceValidateKey; rw [List.length_replicate]; rfl⟩

end Sys2Proof.Tests
end

section
/-! PROOFS: the state of the block (10_state.md). First what one command does, said once
(`afterCommand`); then the invariant of R39, the frames of R23 to R33, the hidden bytes of R38, the
sticky fault of R33, the register reads of R35 and the key index of R28. -/

namespace Sys2Proof.Machine

/-! ### Words of commands -/

@[simp] theorem reserved_encodeN (op : BitVec 8) : (encodeN op).extractLsb' 8 24 = 0#24 := by
  ext j hj
  simp only [encodeN, BitVec.getElem_extractLsb', BitVec.getLsbD_append]
  simp

@[simp] theorem reserved_encodeB (op : BitVec 8) (b : Byte) :
    (encodeB op b).extractLsb' 16 16 = 0#16 := by
  ext j hj
  simp only [encodeB, BitVec.getElem_extractLsb', BitVec.getLsbD_append]
  interval_cases j <;> simp

@[simp] theorem reserved_encodeI (op : BitVec 8) (idx : BitVec 16) :
    (encodeI op idx).extractLsb' 24 8 = 0#8 := by
  ext j hj
  simp only [encodeI, BitVec.getElem_extractLsb', BitVec.getLsbD_append]
  interval_cases j <;> simp

/-- The word of a command decodes to the command: its opcode selects the format, its reserved bits
are 0 and its field holds the operand. -/
theorem decode_encode (i : Instr) : decode (encode i) = .command i := by
  cases i <;> simp [decode, encode, formatN, formatB, formatI]

/-! ### What a command does -/

/-- The state in which a command that has no cause of a fault completes. -/
def completed : Instr → State → State
  | .nop, s => s
  | .clrErr, s => clearFault s
  | .ksClr, s => { s with kslen := 0 }
  | .ksPush b, s => { s with ks := Memory.write s.ks s.kslen b, kslen := s.kslen + 1 }
  | .kdParse, s =>
    { s with
      kdnum := isDec s.specBytes
      kb := Memory.writeFrom s.kb 0 (parseBytes s.specBytes)
      kblen := (parseBytes s.specBytes).length
      vres := .none }
  | .kbClr, s => { s with kblen := 0, vres := .none }
  | .kbPush b, s =>
    { s with kb := Memory.write s.kb s.kblen b, kblen := s.kblen + 1, vres := .none }
  | .kbRead idx, s => { s with res := Memory.read s.kb idx.toNat }
  | .kdValidate, s => { s with vres := verdictOf s.kblen }
  | .engNew, s =>
    { s with
      key := Memory.writeFrom s.key 0 s.keyBytes
      klen := s.kblen
      kidx := 0
      pos := 0#32
      active := false }
  | .keyRead idx, s => { s with res := Memory.read s.key idx.toNat }
  | .msgEnc, s => openMessage .encrypt s
  | .msgDec, s => openMessage .decrypt s
  | .msgEnd, s => { s with active := false }
  | .xfer d, s =>
    { s with
      res := transform s.mode d (Memory.read s.key s.kidx)
      kidx := nextIdx s.kidx s.klen
      pos := s.pos + 1#32 }

/-- An `XFER` without a cause of a fault has an open message and a key byte to use. -/
theorem xfer_no_fault {d : Byte} {s : State} (h : faultOf (.xfer d) s = none) :
    s.active = true ∧ s.klen ≠ 0 := by
  simp only [faultOf] at h
  split_ifs at h with ha hk
  exact ⟨Bool.eq_true_of_not_eq_false ha, hk⟩

/-- The state after a command: the fault of its cause is taken, or it completes. -/
def afterCommand (i : Instr) (s : State) : State :=
  match faultOf i s with
  | some c => raiseFault c s
  | none => completed i s

theorem afterCommand_of_fault {i : Instr} {s : State} {c : ErrCode} (h : faultOf i s = some c) :
    afterCommand i s = raiseFault c s := by
  simp [afterCommand, h]

theorem afterCommand_of_no_fault {i : Instr} {s : State} (h : faultOf i s = none) :
    afterCommand i s = completed i s := by
  simp [afterCommand, h]

/-- A command with one cause of a fault: a test for it, then the update behind an index guard. -/
structure Guarded (i : Instr) (s : State) (cause : Prop) (c : ErrCode) (j : Nat) : Prop where
  fault : cause → faultOf i s = some c ∧ exec i s = .next (raiseFault c s)
  complete : ¬ cause → faultOf i s = none ∧ exec i s = ifByteExists j (.next (completed i s))

theorem guarded_of_eq_ite {i : Instr} {s : State} {cause : Prop} [Decidable cause] {c : ErrCode}
    {j : Nat} (hf : faultOf i s = if cause then some c else none)
    (hx : exec i s =
      if cause then .next (raiseFault c s) else ifByteExists j (.next (completed i s))) :
    Guarded i s cause c j where
  fault h := by rw [hf, hx, if_pos h, if_pos h]; exact ⟨rfl, rfl⟩
  complete h := by rw [hf, hx, if_neg h, if_neg h]; exact ⟨rfl, rfl⟩

/-- If a guarded command answers, it took its fault or completed. -/
theorem Guarded.eq_next {i : Instr} {s t : State} {cause : Prop} {c : ErrCode} {j : Nat}
    (g : Guarded i s cause c j) (h : exec i s = .next t) : t = afterCommand i s := by
  by_cases hc : cause
  · obtain ⟨hf, hx⟩ := g.fault hc
    rw [afterCommand_of_fault hf]
    exact Host.Outcome.next.inj (h.symm.trans hx)
  · obtain ⟨hf, hx⟩ := g.complete hc
    rw [afterCommand_of_no_fault hf]
    obtain ⟨-, hx⟩ := ifByteExists_eq_next (hx.symm.trans h)
    exact (Host.Outcome.next.inj hx).symm

/-- A guarded command answers if it has its cause or its byte exists. -/
theorem Guarded.exec_of_lt {i : Instr} {s : State} {cause : Prop} {c : ErrCode} {j : Nat}
    (g : Guarded i s cause c j) (hj : ¬ cause → j < Config.CAP) :
    exec i s = .next (afterCommand i s) := by
  by_cases hc : cause
  · obtain ⟨hf, hx⟩ := g.fault hc
    rw [hx, afterCommand_of_fault hf]
  · obtain ⟨hf, hx⟩ := g.complete hc
    rw [hx, afterCommand_of_no_fault hf, ifByteExists_of_lt (hj hc)]

theorem guarded_ksPush (b : Byte) (s : State) :
    Guarded (.ksPush b) s (s.kslen = Config.CAP) .ksOverflow s.kslen :=
  guarded_of_eq_ite rfl rfl

theorem guarded_kbPush (b : Byte) (s : State) :
    Guarded (.kbPush b) s (s.kblen = Config.CAP) .kbOverflow s.kblen :=
  guarded_of_eq_ite rfl rfl

theorem guarded_kbRead (idx : BitVec 16) (s : State) :
    Guarded (.kbRead idx) s (s.kblen ≤ idx.toNat) .indexRange idx.toNat :=
  guarded_of_eq_ite rfl rfl

theorem guarded_keyRead (idx : BitVec 16) (s : State) :
    Guarded (.keyRead idx) s (s.klen ≤ idx.toNat) .indexRange idx.toNat :=
  guarded_of_eq_ite rfl rfl

theorem guarded_xfer (d : Byte) {s : State} (ha : s.active = true) :
    Guarded (.xfer d) s (s.klen = 0) .moduloByZero s.kidx :=
  guarded_of_eq_ite (by simp [faultOf, ha]) (by simp [exec, execXfer, completed, ha])

/-- An `XFER` with no message open faults, whatever the key is (60_exceptions.md R174). -/
theorem exec_xfer_of_closed (d : Byte) {s : State} (ha : s.active = false) :
    exec (.xfer d) s = .next (afterCommand (.xfer d) s) := by
  simp [exec, execXfer, afterCommand, faultOf, ha]

/-- If a command answers a next state, it is the one `afterCommand` names. -/
theorem exec_eq_next {i : Instr} {s t : State} (h : exec i s = .next t) : t = afterCommand i s := by
  cases i with
  | nop | clrErr | ksClr | kbClr | kdValidate | msgEnc | msgDec | msgEnd =>
    cases h
    rfl
  | kdParse | engNew =>
    obtain ⟨-, h⟩ := ifBytesExist_eq_next h
    cases h
    rfl
  | ksPush b => exact (guarded_ksPush b s).eq_next h
  | kbPush b => exact (guarded_kbPush b s).eq_next h
  | kbRead idx => exact (guarded_kbRead idx s).eq_next h
  | keyRead idx => exact (guarded_keyRead idx s).eq_next h
  | xfer d =>
    cases ha : s.active with
    | false => exact Host.Outcome.next.inj (h.symm.trans (exec_xfer_of_closed d ha))
    | true => exact (guarded_xfer d ha).eq_next h

/-- The key index is below `CAP` when there is a key byte for it to select. -/
theorem State.Inv.kidx_lt_cap {s : State} (h : s.Inv) (hk : 0 < s.klen) : s.kidx < Config.CAP :=
  Nat.lt_of_lt_of_le (h.kidx_lt hk) h.klen_le

/-- From a state that meets the invariant every command answers: no index is beyond `CAP`. -/
theorem exec_of_inv {s : State} (h : s.Inv) (i : Instr) : exec i s = .next (afterCommand i s) := by
  cases i with
  | nop | clrErr | ksClr | kbClr | kdValidate | msgEnc | msgDec | msgEnd => rfl
  | kdParse => exact ifBytesExist_of_le h.kslen_le _
  | engNew => exact ifBytesExist_of_le h.kblen_le _
  | ksPush b => exact (guarded_ksPush b s).exec_of_lt (Nat.lt_of_le_of_ne h.kslen_le)
  | kbPush b => exact (guarded_kbPush b s).exec_of_lt (Nat.lt_of_le_of_ne h.kblen_le)
  | kbRead idx =>
    exact (guarded_kbRead idx s).exec_of_lt fun hc => (Nat.not_le.1 hc).trans_le h.kblen_le
  | keyRead idx =>
    exact (guarded_keyRead idx s).exec_of_lt fun hc => (Nat.not_le.1 hc).trans_le h.klen_le
  | xfer d =>
    cases ha : s.active with
    | false => exact exec_xfer_of_closed d ha
    | true =>
      exact (guarded_xfer d ha).exec_of_lt fun hk => h.kidx_lt_cap (Nat.pos_of_ne_zero hk)

/-! ### The invariant (10_state.md R39) -/

/-- The last byte index plus one, reduced by `NextIdx`, is the next residue (42_cipher_engine.md
R140). -/
theorem nextIdx_mod {len : Nat} (hl : 0 < len) (k : Nat) :
    nextIdx (k % len) len = (k + 1) % len := by
  have hlt : k % len < len := Nat.mod_lt k hl
  rw [nextIdx, ← Nat.mod_add_mod k len 1]
  split_ifs with hend
  · rw [hend, Nat.mod_self]
  · exact (Nat.mod_eq_of_lt (by omega)).symm

/-- A parse never makes a key longer than its specification: `n` digits are below `10^n`, so below
`256^n` (40_key_derivation.md R105). -/
theorem length_parseBytes_le (s : List Byte) : (parseBytes s).length ≤ s.length := by
  unfold parseBytes
  split
  · next hdec =>
    have hdig : ∀ b ∈ s, b.toNat ≤ 0x39 := by
      intro b hb
      simp only [isDec, Bool.and_eq_true, List.all_eq_true] at hdec
      have := hdec.2 b hb
      simp only [isDigit, Bool.and_eq_true, decide_eq_true_eq] at this
      exact this.2
    have hval : decValue s < 256 ^ s.length :=
      Nat.lt_of_lt_of_le (decValue_lt hdig) (Nat.pow_le_pow_left (by decide) _)
    rw [decToBytes, length_bigEndian]
    exact byteCount_le.2 hval
  · exact Nat.le_refl _

theorem reset_inv : State.reset.Inv where
  kslen_le := by decide
  kblen_le := by decide
  klen_le := by decide
  kidx_zero _ := rfl
  kidx_lt h := h
  position := ⟨0, rfl, rfl⟩
  verdict_current := .inl rfl
  err_logged _ h := by cases h
  ks_wf := by decide
  kb_wf := by decide
  key_wf := by decide
  ks_inCap := by decide
  kb_inCap := by decide
  key_inCap := by decide

/-- The host's side of the window is no part of the invariant. -/
theorem State.Inv.withHost {s : State} (h : s.Inv) (es : List HostEvent) (vs : List Word) :
    { s with inputs := es, reads := vs }.Inv := { h with }

theorem raiseFault_inv {s : State} (h : s.Inv) (c : ErrCode) : (raiseFault c s).Inv :=
  { h with err_logged := by simp }

theorem clearFault_inv {s : State} (h : s.Inv) : (clearFault s).Inv :=
  { h with err_logged := by simp }

theorem openMessage_inv {s : State} (h : s.Inv) (m : Mode) : (openMessage m s).Inv :=
  { h with
    kidx_zero := fun _ => rfl
    kidx_lt := fun hk => hk
    position := ⟨0, rfl, by simp⟩ }

theorem resetBlock_inv (s : State) : (resetBlock s).Inv :=
  { reset_inv with err_logged := by simp }

/-- A command without a cause of a fault keeps the invariant. -/
theorem completed_inv {i : Instr} {s : State} (h : s.Inv) (hf : faultOf i s = none) :
    (completed i s).Inv := by
  cases i with
  | nop => exact h
  | clrErr => exact clearFault_inv h
  | ksClr => exact { h with kslen_le := Nat.zero_le _ }
  | ksPush b =>
    have hlt : s.kslen < Config.CAP := Nat.lt_of_le_of_ne h.kslen_le (by simpa [faultOf] using hf)
    exact { h with
      kslen_le := hlt
      ks_wf := Memory.wf_write h.ks_wf _ _
      ks_inCap := Memory.inCap_write h.ks_inCap hlt _ }
  | kdParse =>
    have hlen : (parseBytes s.specBytes).length ≤ Config.CAP :=
      calc (parseBytes s.specBytes).length
        _ ≤ s.specBytes.length := length_parseBytes_le _
        _ = s.kslen := Memory.length_bytes _ _
        _ ≤ Config.CAP := h.kslen_le
    exact { h with
      kblen_le := hlen
      verdict_current := .inl rfl
      kb_wf := Memory.wf_writeFrom h.kb_wf _ _
      kb_inCap := Memory.inCap_writeFrom h.kb_inCap (by omega) }
  | kbClr => exact { h with kblen_le := Nat.zero_le _, verdict_current := .inl rfl }
  | kbPush b =>
    have hlt : s.kblen < Config.CAP := Nat.lt_of_le_of_ne h.kblen_le (by simpa [faultOf] using hf)
    exact { h with
      kblen_le := hlt
      verdict_current := .inl rfl
      kb_wf := Memory.wf_write h.kb_wf _ _
      kb_inCap := Memory.inCap_write h.kb_inCap hlt _ }
  | kdValidate => exact { h with verdict_current := .inr rfl }
  | engNew =>
    exact { h with
      klen_le := h.kblen_le
      kidx_zero := fun _ => rfl
      kidx_lt := fun hk => hk
      position := ⟨0, rfl, (Nat.zero_mod _).symm⟩
      key_wf := Memory.wf_writeFrom h.key_wf _ _
      key_inCap := Memory.inCap_writeFrom h.key_inCap (by simpa [State.keyBytes] using h.kblen_le) }
  | kbRead idx | keyRead idx | msgEnd => exact { h with }
  | msgEnc | msgDec => exact openMessage_inv h _
  | xfer d =>
    have hk : s.klen ≠ 0 := (xfer_no_fault hf).2
    have hpos : 0 < s.klen := Nat.pos_of_ne_zero hk
    obtain ⟨k, hp, hi⟩ := h.position
    have hnext : nextIdx s.kidx s.klen = (k + 1) % s.klen := by rw [hi, nextIdx_mod hpos]
    exact { h with
      kidx_zero := fun h0 => absurd h0 hk
      kidx_lt := fun _ => hnext.trans_lt (Nat.mod_lt _ hpos)
      position := ⟨k + 1, by simp [completed, hp, BitVec.ofNat_add], hnext⟩ }

theorem afterCommand_inv {s : State} (h : s.Inv) (i : Instr) : (afterCommand i s).Inv := by
  cases hf : faultOf i s with
  | some c => simpa [afterCommand_of_fault hf] using raiseFault_inv h c
  | none => simpa [afterCommand_of_no_fault hf] using completed_inv h hf

theorem busWrite_inv {off : BitVec 6} {v : Word} {s t : State} (h : s.Inv)
    (hw : busWrite off v s = .next t) : t.Inv := by
  obtain ⟨-, rfl⟩ | ⟨-, -, rfl⟩ | ⟨-, -, -, rfl⟩ | ⟨-, -, i, -, hx⟩ := busWrite_eq_next hw
  · exact h
  · split
    · exact clearFault_inv h
    · exact h
  · exact raiseFault_inv h _
  · rw [exec_eq_next hx]
    exact afterCommand_inv h i

theorem step_inv {s t : State} (h : s.Inv) (hs : step s = .next t) : t.Inv := by
  obtain ⟨-, rfl⟩ | ⟨e, rest, -, hserve⟩ := step_eq_next hs
  · exact h
  · obtain ⟨off, -, -, rfl⟩ | ⟨off, v, -, -, hw⟩ | ⟨-, rfl⟩ := hserve
    · exact h.withHost _ _
    · exact busWrite_inv (h.withHost rest s.reads) hw
    · exact resetBlock_inv _

theorem State.Reachable.inv {s : State} (h : s.Reachable) : s.Inv := by
  induction h with
  | reset => exact reset_inv
  | host es _ ih => exact ih.withHost _ _
  | step _ hs ih => exact step_inv ih hs

/-- Settles O3. -/
theorem resetMeetsInvariant : Obligations.ResetMeetsInvariant := reset_inv

/-- Settles O4: a served access is a read, a write or a reset, and a write runs at most one
command. -/
theorem stepKeepsInvariant : Obligations.StepKeepsInvariant := fun _ _ => step_inv

theorem errByte_le (e : Option ErrCode) : (errByte e).toNat ≤ 0x06 := by
  cases e with
  | none => decide
  | some c => cases c <;> decide

/-- Settles O5: the invariant of `step_inv` holds in every reachable state; the two codes are in
range by their types. -/
theorem reachableStatesMeetTheInvariants : Obligations.ReachableStatesMeetTheInvariants := by
  intro s hs
  have h := hs.inv
  have hvres : s.vres.code.toNat ≤ 3 := by omega
  exact ⟨h.kslen_le, h.kblen_le, h.klen_le, h.kidx_zero, h.kidx_lt, errByte_le s.err, hvres⟩

/-! ### Bytes at or beyond the lengths (10_state.md R38) -/

theorem sameBelow_bytes {n : Nat} {m m' : Memory} (h : sameBelow n m m') :
    Memory.bytes m n = Memory.bytes m' n :=
  Memory.bytes_congr h

/-- A byte pushed at the end of both memories. -/
theorem sameBelow_write_end {n : Nat} {m m' : Memory} (hm : Memory.wf m) (hm' : Memory.wf m')
    (h : sameBelow n m m') (b : Byte) :
    sameBelow (n + 1) (Memory.write m n b) (Memory.write m' n b) := by
  intro j hj
  rw [Memory.read_write hm, Memory.read_write hm']
  split_ifs with hjn
  · rfl
  · exact h j (by omega)

/-- A sequence written to both memories hides what they held before. -/
theorem sameBelow_writeFrom {m m' : Memory} (hm : Memory.wf m) (hm' : Memory.wf m')
    (bs : List Byte) :
    sameBelow bs.length (Memory.writeFrom m 0 bs) (Memory.writeFrom m' 0 bs) := by
  intro j hj
  rw [Memory.read_writeFrom hm, Memory.read_writeFrom hm', if_pos (by omega), if_pos (by omega)]

namespace SameVisible

theorem specBytes {s t : State} (h : SameVisible s t) : s.specBytes = t.specBytes := by
  rw [State.specBytes, State.specBytes, ← h.kslen, sameBelow_bytes h.ks]

theorem keyBytes {s t : State} (h : SameVisible s t) : s.keyBytes = t.keyBytes := by
  rw [State.keyBytes, State.keyBytes, ← h.kblen, sameBelow_bytes h.kb]

/-- Every register shows the same: none of them reads a byte memory. -/
theorem busRead {s t : State} (h : SameVisible s t) (off : BitVec 6) :
    busRead s off = busRead t off := by
  have hstatus : statusWord s = statusWord t := by
    simp only [statusWord, h.vres, h.err, h.kdnum, h.mode, h.active]
  simp only [Machine.busRead, regRead, hstatus, h.res, h.kslen, h.kblen, h.klen, h.kidx, h.pos]

/-- The same commands have a cause of a fault. -/
theorem faultOf {s t : State} (h : SameVisible s t) (i : Instr) : faultOf i s = faultOf i t := by
  cases i <;> simp only [Machine.faultOf, h.kslen, h.kblen, h.klen, h.active]

theorem withHost {s t : State} (h : SameVisible s t) (es : List HostEvent) {vs ws : List Word}
    (hv : vs = ws) :
    SameVisible { s with inputs := es, reads := vs } { t with inputs := es, reads := ws } :=
  { h with inputs := rfl, reads := hv }

theorem raiseFault {s t : State} (h : SameVisible s t) (c : ErrCode) :
    SameVisible (raiseFault c s) (raiseFault c t) :=
  { h with
    err := rfl
    active := by simp [h.active]
    faultLog := by simp [h.faultLog] }

theorem clearFault {s t : State} (h : SameVisible s t) :
    SameVisible (clearFault s) (clearFault t) :=
  { h with err := rfl }

theorem openMessage {s t : State} (h : SameVisible s t) (m : Mode) :
    SameVisible (openMessage m s) (openMessage m t) :=
  { h with active := rfl, mode := rfl, kidx := rfl, pos := rfl }

theorem resetBlock {s t : State} (h : SameVisible s t) :
    SameVisible (resetBlock s) (resetBlock t) where
  kslen := rfl
  kblen := rfl
  klen := rfl
  kdnum := rfl
  vres := rfl
  kidx := rfl
  active := rfl
  mode := rfl
  pos := rfl
  res := rfl
  err := rfl
  faultLog := h.faultLog
  inputs := h.inputs
  reads := h.reads
  ks _ _ := rfl
  kb _ _ := rfl
  key _ _ := rfl

/-- A command reads a byte memory below its length only, and a byte it makes valid it has written. -/
theorem completed {s t : State} (hs : s.Inv) (ht : t.Inv) (h : SameVisible s t) {i : Instr}
    (hf : Machine.faultOf i s = none) : SameVisible (completed i s) (completed i t) := by
  cases i with
  | nop => exact h
  | clrErr => exact h.clearFault
  | ksClr => exact { h with kslen := rfl, ks := fun _ hj => absurd hj (Nat.not_lt_zero _) }
  | ksPush b =>
    have hks := sameBelow_write_end hs.ks_wf ht.ks_wf h.ks b
    exact { h with
      kslen := congrArg (· + 1) h.kslen
      ks := by simpa only [Machine.completed, h.kslen] using hks }
  | kdParse =>
    have hkb := sameBelow_writeFrom hs.kb_wf ht.kb_wf (parseBytes s.specBytes)
    exact { h with
      kdnum := congrArg isDec h.specBytes
      vres := rfl
      kblen := congrArg (fun bs => (parseBytes bs).length) h.specBytes
      kb := by simpa only [Machine.completed, h.specBytes] using hkb }
  | kbClr =>
    exact { h with kblen := rfl, vres := rfl, kb := fun _ hj => absurd hj (Nat.not_lt_zero _) }
  | kbPush b =>
    have hkb := sameBelow_write_end hs.kb_wf ht.kb_wf h.kb b
    exact { h with
      kblen := congrArg (· + 1) h.kblen
      vres := rfl
      kb := by simpa only [Machine.completed, h.kblen] using hkb }
  | kbRead idx =>
    have hlt : idx.toNat < s.kblen := by simpa [Machine.faultOf] using hf
    exact { h with res := h.kb _ hlt }
  | kdValidate => exact { h with vres := congrArg verdictOf h.kblen }
  | engNew =>
    have hkey := sameBelow_writeFrom hs.key_wf ht.key_wf s.keyBytes
    rw [show s.keyBytes.length = s.kblen from Memory.length_bytes _ _] at hkey
    exact { h with
      klen := h.kblen
      kidx := rfl
      pos := rfl
      active := rfl
      key := by simpa only [Machine.completed, h.keyBytes] using hkey }
  | keyRead idx =>
    have hlt : idx.toNat < s.klen := by simpa [Machine.faultOf] using hf
    exact { h with res := h.key _ hlt }
  | msgEnc | msgDec => exact h.openMessage _
  | msgEnd => exact { h with active := rfl }
  | xfer d =>
    have hlt : s.kidx < s.klen := hs.kidx_lt (Nat.pos_of_ne_zero (xfer_no_fault hf).2)
    have hbyte : Memory.read s.key s.kidx = Memory.read t.key t.kidx := by
      rw [h.key _ hlt, h.kidx]
    exact { h with
      res := by simp only [Machine.completed, h.mode, hbyte]
      kidx := by simp only [Machine.completed, h.kidx, h.klen]
      pos := by simp only [Machine.completed, h.pos] }

theorem afterCommand {s t : State} (hs : s.Inv) (ht : t.Inv) (h : SameVisible s t) (i : Instr) :
    SameVisible (afterCommand i s) (afterCommand i t) := by
  cases hf : Machine.faultOf i s with
  | some c =>
    rw [afterCommand_of_fault hf, afterCommand_of_fault (h.faultOf i ▸ hf)]
    exact h.raiseFault c
  | none =>
    rw [afterCommand_of_no_fault hf, afterCommand_of_no_fault (h.faultOf i ▸ hf)]
    exact completed hs ht h hf

/-- `Execute` of one word answers the same. -/
theorem execute {s t : State} (hs : s.Inv) (ht : t.Inv) (h : SameVisible s t) (w : Word) :
    sameAnswer (execute w s) (execute w t) := by
  by_cases he : s.err = none
  · have he' : t.err = none := h.err ▸ he
    cases hd : decode w with
    | command i =>
      rw [execute_command he hd, execute_command he' hd, exec_of_inv hs, exec_of_inv ht]
      exact afterCommand hs ht h i
    | illegal why =>
      rw [execute_illegal he hd, execute_illegal he' hd]
      exact h.raiseFault _
  · have he' : t.err ≠ none := h.err ▸ he
    rw [execute_faulted he, execute_faulted he']
    split
    · exact h.clearFault
    · exact h

theorem ifAccessible {r q : Result} (h : sameAnswer r q) (off : BitVec 6) (bits : Nat) :
    sameAnswer (ifAccessible off bits r) (ifAccessible off bits q) := by
  unfold Machine.ifAccessible
  split_ifs
  · rfl
  · rfl
  · exact h

/-- One access is answered the same, refused accesses included. -/
theorem serve {s t : State} (hs : s.Inv) (ht : t.Inv) (h : SameVisible s t) (e : HostEvent) :
    sameAnswer (serve e s) (serve e t) := by
  cases e with
  | read off bits =>
    refine ifAccessible ?_ off bits
    have hreads : s.reads ++ [Machine.busRead s off] = t.reads ++ [Machine.busRead t off] := by
      rw [h.reads, h.busRead off]
    exact { h with reads := hreads }
  | write off bits v =>
    refine ifAccessible ?_ off bits
    unfold busWrite
    split_ifs
    · exact execute hs ht h v
    · exact h
  | reset => exact h.resetBlock

end SameVisible

/-- Settles O55: both states serve the same access, which acts on what both show. -/
theorem hiddenBytesNeverShow : Obligations.HiddenBytesNeverShow := by
  intro s t hs ht h
  cases hi : s.inputs with
  | nil =>
    rw [step_idle hi, step_idle (h.inputs ▸ hi)]
    exact h
  | cons e rest =>
    rw [step_cons hi, step_cons (h.inputs ▸ hi)]
    exact SameVisible.serve (hs.withHost rest s.reads) (ht.withHost rest t.reads)
      (h.withHost rest h.reads) e

/-! ### The recorded fault (10_state.md R33) -/

/-- The aligned offset that selects `CMD` is its own. -/
theorem offset_eq_cmd {off : BitVec 6} (ha : offsetAligned off = true) (hs : selectOf off = 0#4) :
    off = RegName.CMD.offset := by
  revert off
  decide

/-- Settles O22: while a fault is recorded a write of `CMD` clears it or is dropped. -/
theorem recordedFaultStaysUntilCleared : Obligations.RecordedFaultStaysUntilCleared := by
  intro s t c hs hc
  obtain ⟨-, rfl⟩ | ⟨e, rest, hi, hserve⟩ := step_eq_next hs
  · exact .inl hc
  · obtain ⟨off, -, -, rfl⟩ | ⟨off, v, rfl, ha, hw⟩ | ⟨rfl, rfl⟩ := hserve
    · exact .inl hc
    · obtain ⟨-, rfl⟩ | ⟨hsel, -, rfl⟩ | ⟨-, he, -⟩ | ⟨-, he, -⟩ := busWrite_eq_next hw
      · exact .inl hc
      · by_cases hv : v = clrErrWord
        · rw [if_pos hv]
          rw [offset_eq_cmd ha hsel, hv] at hi
          exact .inr ⟨rfl, rest, .inl hi⟩
        · rw [if_neg hv]
          exact .inl hc
      · exact absurd (hc.symm.trans he) (by simp)
      · exact absurd (hc.symm.trans he) (by simp)
    · exact .inr ⟨rfl, rest, .inr hi⟩

/-! ### The writers of each state element (10_state.md R23 to R33) -/

/-- Settles O40: a fault writes none of these elements, and what a command writes when it completes
is `completed`. -/
theorem keyDerivationStateHasOnlyItsWriters : Obligations.KeyDerivationStateHasOnlyItsWriters := by
  intro i s t h
  rw [exec_eq_next h]
  cases hf : faultOf i s with
  | some c => simp [afterCommand_of_fault hf]
  | none =>
    rw [afterCommand_of_no_fault hf]
    cases i <;> simp [completed]

/-- Only an `XFER` has the cause of `MODULO_BY_ZERO` (60_exceptions.md R171). -/
theorem eq_xfer_of_moduloByZero {i : Instr} {s : State}
    (h : faultOf i s = some .moduloByZero) : ∃ d, i = .xfer d := by
  cases i with
  | xfer d => exact ⟨d, rfl⟩
  | ksPush _ | kbPush _ | kbRead _ | keyRead _ =>
    simp only [faultOf] at h
    split at h <;> cases h
  | nop | clrErr | ksClr | kdParse | kbClr | kdValidate | engNew | msgEnc | msgDec | msgEnd =>
    cases h

/-- Settles O41: a fault writes `ERR`, and `ACTIVE` only with `MODULO_BY_ZERO`. -/
theorem engineStateHasOnlyItsWriters : Obligations.EngineStateHasOnlyItsWriters := by
  intro i s t h
  rw [exec_eq_next h]
  cases hf : faultOf i s with
  | some c =>
    rw [afterCommand_of_fault hf]
    refine ⟨by simp, by simp, fun ha => ?_, by simp, by simp, fun _ => .inr rfl⟩
    have hc : c = .moduloByZero := by
      by_contra hc
      exact ha (by rw [raiseFault_active, if_neg hc])
    subst hc
    exact .inr (.inr (.inr (.inr ⟨eq_xfer_of_moduloByZero hf, rfl⟩)))
  | none =>
    rw [afterCommand_of_no_fault hf]
    cases i <;> simp [completed]

/-! ### Register reads (10_state.md R34, R35) -/

/-- Settles O1. -/
theorem resetHoldsResetValues : Obligations.ResetHoldsResetValues :=
  ⟨rfl, rfl, rfl, rfl, rfl, rfl, rfl, rfl, rfl, rfl, rfl⟩

theorem errByte_ne_zero (e : Option ErrCode) : errByte e ≠ 0#8 ↔ e.isSome = true := by
  cases e with
  | none => decide
  | some c => cases c <;> decide

/-- A concatenation is a sum: the low part does not reach the high one. -/
theorem toNat_append_add {m n : Nat} (x : BitVec m) (y : BitVec n) :
    (x ++ y).toNat = x.toNat * 2 ^ n + y.toNat := by
  rw [BitVec.toNat_append, ← Nat.shiftLeft_add_eq_or_of_lt y.isLt, Nat.shiftLeft_eq]

theorem toNat_statusWord (s : State) :
    (statusWord s).toNat = s.vres.code.toNat * 2 ^ 16 + (errByte s.err).toNat * 2 ^ 8 +
      (if errByte s.err ≠ 0#8 then 8 else 0) + s.kdnum.toNat * 4 + s.mode.bit.toNat * 2 +
      s.active.toNat := by
  simp only [errByte_ne_zero, statusWord, toNat_append_add]
  cases s.err.isSome <;> simp <;> omega

theorem toNat_field16 {n : Nat} (h : n ≤ Config.CAP) : (field16 n).toNat = n := by
  have hlt : n < 2 ^ 16 := Nat.lt_of_le_of_lt h (by decide)
  rw [field16, BitVec.toNat_setWidth_of_le (by decide), BitVec.toNat_ofNat, Nat.mod_eq_of_lt hlt]

theorem State.Inv.kidx_le_cap {s : State} (h : s.Inv) : s.kidx ≤ Config.CAP := by
  rcases Nat.eq_zero_or_pos s.klen with hk | hk
  · simp [h.kidx_zero hk]
  · exact Nat.le_of_lt (h.kidx_lt_cap hk)

/-- The offsets above `VERSION` select none of the registers. -/
theorem selectOf_ge {off : BitVec 6} (h : 0x28 ≤ off.toNat) : 10 ≤ (selectOf off).toNat := by
  revert off
  decide

theorem regRead_of_ge {sel : BitVec 4} (s : State) (h : 10 ≤ sel.toNat) : regRead s sel = 0#32 := by
  unfold regRead
  split
  case h_11 => rfl
  all_goals omega

/-- A read of an aligned offset, 32 bits wide, appends its value and changes nothing else. -/
theorem step_read {s : State} {off : BitVec 6} {rest : List HostEvent}
    (ha : offsetAligned off = true) (hi : s.inputs = .read off 32 :: rest) :
    step s = .next { s with inputs := rest, reads := s.reads ++ [busRead s off] } := by
  rw [step_cons hi, serve, ifAccessible_of_wellFormed _ rfl ha]
  rfl

/-- Settles O15: `STATUS` is the sum of its fields, and the lengths and the key index fit 16 bits. -/
theorem registerReadsReturnTheirFields : Obligations.RegisterReadsReturnTheirFields := by
  intro s h
  have hoff : ∀ off : BitVec 6, 0x28 ≤ off.toNat → busRead s off = 0#32 :=
    fun off hge => regRead_of_ge s (selectOf_ge hge)
  have hres : (busRead s 0x08#6).toNat = s.res.toNat :=
    BitVec.toNat_setWidth_of_le (by decide)
  exact ⟨toNat_statusWord s, rfl, hres, toNat_field16 h.kslen_le, toNat_field16 h.kblen_le,
    toNat_field16 h.klen_le, toNat_field16 h.kidx_le_cap, rfl, rfl, rfl, fun off _ => hoff off,
    fun off rest ha => step_read (by simp [offsetAligned, ha])⟩

/-! ### The key index (10_state.md R28, 42_cipher_engine.md R140) -/

/-- `k` bytes of a message of mode `m` under the key of `s` have been transferred. -/
structure InMessage (s : State) (m : Mode) (k : Nat) (t : State) : Prop where
  inv : t.Inv
  err : t.err = none
  active : t.active = true
  mode : t.mode = m
  key : t.key = s.key
  klen : t.klen = s.klen
  kidx : t.kidx = k % s.klen
  pos : t.pos = BitVec.ofNat 32 k

/-- The commands of a run go through `exec` one after another while no fault is recorded. -/
theorem runEvents_commands_cons {s t : State} {i : Instr} (he : s.err = none)
    (hx : exec i s = .next t) (is : List Instr) :
    runEvents (commands (i :: is)) s = runEvents (commands is) t := by
  rw [commands, List.map_cons, runEvents_cons, serve_command,
    execute_command he (decode_encode i), hx, Result.andThen_next, commands]

theorem exec_openingOf (m : Mode) (s : State) : exec (openingOf m) s = .next (openMessage m s) := by
  cases m <;> rfl

theorem openMessage_inMessage {s : State} (h : s.Inv) (he : s.err = none) (m : Mode) :
    InMessage s m 0 (openMessage m s) where
  inv := openMessage_inv h m
  err := he
  active := rfl
  mode := rfl
  key := rfl
  klen := rfl
  kidx := (Nat.zero_mod _).symm
  pos := rfl

/-- One `XFER` of an open message with a key takes no fault and counts one byte. -/
theorem InMessage.xfer {s t : State} {m : Mode} {k : Nat} (hl : 0 < s.klen)
    (h : InMessage s m k t) (d : Byte) :
    ∃ u, exec (.xfer d) t = .next u ∧ InMessage s m (k + 1) u := by
  have hf : faultOf (.xfer d) t = none := by
    simp [faultOf, h.active, h.klen, Nat.ne_of_gt hl]
  refine ⟨completed (.xfer d) t, afterCommand_of_no_fault hf ▸ exec_of_inv h.inv _, ?_⟩
  exact { h with
    inv := completed_inv h.inv hf
    kidx := by simp only [completed, h.kidx, h.klen, nextIdx_mod hl]
    pos := by simp [completed, h.pos, BitVec.ofNat_add] }

/-- The transfers of a message count its bytes. -/
theorem InMessage.run {s t : State} {m : Mode} {k : Nat} (hl : 0 < s.klen)
    (h : InMessage s m k t) (data : List Byte) :
    ∃ u, runEvents (commands (data.map .xfer)) t = .next u ∧ InMessage s m (k + data.length) u := by
  induction data generalizing k t with
  | nil => exact ⟨_, runEvents_nil t, { h with inv := h.inv.withHost [] t.reads }⟩
  | cons d ds ih =>
    obtain ⟨t', hx, h'⟩ := h.xfer hl d
    obtain ⟨u, hrun, hu⟩ := ih h'
    refine ⟨u, ?_, ?_⟩
    · rw [List.map_cons, runEvents_commands_cons h.err hx, hrun]
    · rwa [List.length_cons, ← Nat.add_assoc, Nat.add_right_comm]

/-- Settles O49: opening a message starts the count and each `XFER` adds one to it. -/
theorem keyIndexIsDataIndexModuloLength : Obligations.KeyIndexIsDataIndexModuloLength := by
  intro s m data h he hl
  obtain ⟨u, hrun, hu⟩ := (openMessage_inMessage h he m).run hl data
  rw [Nat.zero_add] at hu
  refine ⟨u, ?_, hu.kidx, hu.pos, hu.active, hu.mode, hu.err, ?_⟩
  · rw [runEvents_commands_cons he (exec_openingOf m s), hrun]
  · rw [State.engineKey, State.engineKey, hu.key, hu.klen]

end Sys2Proof.Machine
end

section
/-! PROOFS: the memory-mapped window (20_memory.md). An access is served or refused by its width and
alignment (R52, R53, R55), address bits select the register (R51), the listed commands are idempotent
(R56), and runs compose in reception order (R59). -/

namespace Sys2Proof.Machine

/-! ### Every well-formed access completes (20_memory.md R55) -/

/-- From a state that meets the invariant `Execute` answers for every word. -/
theorem State.Inv.execute_answers {s : State} (h : s.Inv) (w : Word) :
    ∃ t, execute w s = .next t := by
  by_cases he : s.err = none
  · cases hd : decode w with
    | command i => exact ⟨_, (execute_command he hd).trans (exec_of_inv h i)⟩
    | illegal why => exact ⟨_, execute_illegal he hd⟩
  · exact ⟨_, execute_faulted he⟩

/-- From a state that meets the invariant a register write answers. -/
theorem State.Inv.busWrite_answers {s : State} (h : s.Inv) (off : BitVec 6) (v : Word) :
    ∃ t, busWrite off v s = .next t := by
  by_cases hs : selectOf off = 0#4
  · simpa only [busWrite, if_pos hs] using h.execute_answers v
  · exact ⟨s, if_neg hs⟩

/-- A well-formed access or a reset is served from a state that meets the invariant. -/
theorem State.Inv.serve_answers {s : State} (h : s.Inv) {e : HostEvent}
    (hw : e.wellFormed = true) : ∃ t, serve e s = .next t := by
  cases e with
  | reset => exact ⟨_, rfl⟩
  | read off bits =>
    obtain ⟨hb, ha⟩ : bits = 32 ∧ offsetAligned off = true := by
      simpa [HostEvent.wellFormed] using hw
    exact ⟨_, ifAccessible_of_wellFormed _ hb ha⟩
  | write off bits v =>
    obtain ⟨hb, ha⟩ : bits = 32 ∧ offsetAligned off = true := by
      simpa [HostEvent.wellFormed] using hw
    obtain ⟨t, ht⟩ := h.busWrite_answers off v
    exact ⟨t, (ifAccessible_of_wellFormed _ hb ha).trans ht⟩

/-- Settles O6: the access is served whatever is still pending, and serving it leaves the pending
list alone. -/
theorem wellFormedAccessCompletes : Obligations.WellFormedAccessCompletes := by
  intro s e rest h hi hw
  obtain ⟨t, ht⟩ := h.serve_answers hw
  refine ⟨{ t with inputs := rest }, ?_, rfl⟩
  rw [step_cons hi, serve_inputs, ht, Result.andThen_next]

/-! ### Runs compose (20_memory.md R59) -/

theorem Result.andThen_assoc (r : Result) (f g : State → Result) :
    Result.andThen (Result.andThen r f) g = Result.andThen r fun s => Result.andThen (f s) g := by
  cases r <;> rfl

/-- A run brings its own accesses: those pending before it are not seen. -/
theorem runEvents_withInputs (es fs : List HostEvent) (s : State) :
    runEvents fs { s with inputs := es } = runEvents fs s := rfl

/-- Settles O19, by induction on the first list: each access is served before the rest of the run,
and a stop in it stops both sides. -/
theorem runsComposeInReceptionOrder : Obligations.RunsComposeInReceptionOrder := by
  intro es fs s
  induction es generalizing s with
  | nil =>
    rw [List.nil_append, runEvents_nil, Result.andThen_next]
    exact (runEvents_withInputs [] fs s).symm
  | cons e es ih =>
    rw [List.cons_append, runEvents_cons, runEvents_cons, Result.andThen_assoc]
    exact congrArg _ (funext ih)

/-! ### Idempotent commands (20_memory.md R56) -/

/-- Writing the same sequence to the same place again changes nothing. -/
theorem Memory.writeFrom_writeFrom {m : Memory} (hm : Memory.wf m) (a : Nat) (bs : List Byte) :
    Memory.writeFrom (Memory.writeFrom m a bs) a bs = Memory.writeFrom m a bs := by
  have hm₁ : Memory.wf (Memory.writeFrom m a bs) := Memory.wf_writeFrom hm a bs
  apply Memory.ext_of_wf (Memory.wf_writeFrom hm₁ a bs) hm₁
  intro j
  rw [Memory.read_writeFrom hm₁, Memory.read_writeFrom hm]
  split_ifs <;> rfl

/-- `0x00000001` is the word of `CLR_ERR` alone. -/
theorem eq_clrErr_of_encode {i : Instr} (h : encode i = clrErrWord) : i = .clrErr := by
  have hd : decode (encode i) = .command .clrErr := by
    rw [h]
    rfl
  exact Decoded.command.inj ((decode_encode i).symm.trans hd)

/-- A command that completes records no fault. -/
theorem completed_err {i : Instr} {s : State} (he : s.err = none) : (completed i s).err = none := by
  cases i with
  | clrErr => rfl
  | nop | ksClr | ksPush _ | kdParse | kbClr | kbPush _ | kbRead _ | kdValidate | engNew | keyRead _
  | msgEnc | msgDec | msgEnd | xfer _ => exact he

/-- Completing a listed command does not give it a cause of a fault: it keeps the length an indexed
read is held against. -/
theorem faultOf_completed {i : Instr} {s : State} (hi : idempotentCommand i = true)
    (hf : faultOf i s = none) : faultOf i (completed i s) = none := by
  cases i with
  | ksPush _ | kbPush _ | xfer _ => cases hi
  | kbRead _ | keyRead _ => exact hf
  | nop | clrErr | ksClr | kdParse | kbClr | kdValidate | engNew | msgEnc | msgDec | msgEnd => rfl

/-- Completing a listed command twice is completing it once: what it writes depends on nothing it
writes, and a key written over itself is the same key. -/
theorem completed_completed {i : Instr} {s : State} (h : s.Inv) (hi : idempotentCommand i = true) :
    completed i (completed i s) = completed i s := by
  cases i with
  | ksPush _ | kbPush _ | xfer _ => cases hi
  | kdParse =>
    have hkb := Memory.writeFrom_writeFrom h.kb_wf 0 (parseBytes s.specBytes)
    exact congrArg (fun m => { completed .kdParse s with kb := m }) hkb
  | engNew =>
    have hkey := Memory.writeFrom_writeFrom h.key_wf 0 s.keyBytes
    exact congrArg (fun m => { completed .engNew s with key := m }) hkey
  | nop | clrErr | ksClr | kbClr | kbRead _ | kdValidate | keyRead _ | msgEnc | msgDec | msgEnd =>
    rfl

/-- With no fault recorded the word of a command runs the command. -/
theorem execute_encode {s : State} (h : s.Inv) (he : s.err = none) (i : Instr) :
    execute (encode i) s = .next (afterCommand i s) := by
  rw [execute_command he (decode_encode i), exec_of_inv h]

/-- The word of `CLR_ERR` clears a recorded fault, if there is one. -/
theorem execute_encode_clrErr (s : State) : execute (encode .clrErr) s = .next (clearFault s) := by
  by_cases he : s.err = none
  · exact execute_command he (decode_encode .clrErr)
  · exact (execute_faulted he).trans (congrArg _ (if_pos rfl))

/-- While a fault is recorded every command but `CLR_ERR` is dropped. -/
theorem execute_encode_faulted {s : State} (he : s.err ≠ none) {i : Instr} (hi : i ≠ .clrErr) :
    execute (encode i) s = .next s := by
  rw [execute_faulted he, if_neg fun hw => hi (eq_clrErr_of_encode hw)]

/-- Settles O54: a listed command that completes can complete again to the same state; one that
faults, or meets a fault, is dropped the second time, except `CLR_ERR`, which then has nothing to
clear. -/
theorem listedCommandsAreIdempotent : Obligations.ListedCommandsAreIdempotent := by
  intro i s t h hi hx
  by_cases hclr : i = .clrErr
  · subst hclr
    obtain rfl := Host.Outcome.next.inj ((execute_encode_clrErr s).symm.trans hx)
    exact execute_encode_clrErr (clearFault s)
  · by_cases he : s.err = none
    · obtain rfl := Host.Outcome.next.inj ((execute_encode h he i).symm.trans hx)
      cases hf : faultOf i s with
      | some c =>
        rw [afterCommand_of_fault hf]
        exact execute_encode_faulted (by simp) hclr
      | none =>
        rw [afterCommand_of_no_fault hf, execute_encode (completed_inv h hf) (completed_err he),
          afterCommand_of_no_fault (faultOf_completed hi hf), completed_completed h hi]
    · obtain rfl := Host.Outcome.next.inj ((execute_encode_faulted he hclr).symm.trans hx)
      exact hx

/-! ### Refused accesses (20_memory.md R53) -/

/-- An access of another width or at a misaligned offset is refused by name. -/
theorem ifAccessible_refused {off : BitVec 6} {bits : Nat} (r : Result)
    (h : bits ≠ 32 ∨ off.toNat % 4 ≠ 0) :
    ∃ q, ifAccessible off bits r = .refused q ∧ (q = .accessWidth ∨ q = .misalignedOffset) := by
  by_cases hb : bits = 32
  · have ha : offsetAligned off = false := by simpa [offsetAligned, hb] using h
    exact ⟨_, by simp [ifAccessible, hb, ha], .inr rfl⟩
  · exact ⟨_, if_pos hb, .inl rfl⟩

/-- Settles O7: reads and writes are behind the same test. -/
theorem illFormedAccessIsRefused : Obligations.IllFormedAccessIsRefused := by
  intro s off bits v rest hbad hi
  rcases hi with hi | hi
  · rw [step_cons hi]
    exact ifAccessible_refused _ hbad
  · rw [step_cons hi]
    exact ifAccessible_refused _ hbad

/-! ### Reads and writes (20_memory.md R52) -/

/-- Among the aligned offsets only 0 selects `CMD`. -/
theorem selectOf_eq_zero_iff {off : BitVec 6} (ha : offsetAligned off = true) :
    selectOf off = 0#4 ↔ off.toNat = 0 := by
  revert off
  decide

/-- A write of an aligned offset, 32 bits wide, is a register write. -/
theorem step_write {s : State} {off : BitVec 6} {v : Word} {rest : List HostEvent}
    (ha : offsetAligned off = true) (hi : s.inputs = .write off 32 v :: rest) :
    step s = busWrite off v { s with inputs := rest } := by
  rw [step_cons hi, serve, ifAccessible_of_wellFormed _ rfl ha]

/-- Settles O16. -/
theorem hostAccessesActAsTheRuleSays : Obligations.HostAccessesActAsTheRuleSays := by
  intro s off v rest haligned
  have ha : offsetAligned off = true := by simp [offsetAligned, haligned]
  refine ⟨step_read ha, fun hi h0 => ?_, fun hi h0 => ?_⟩
  · rw [step_write ha hi, busWrite, if_pos ((selectOf_eq_zero_iff ha).2 h0)]
  · rw [step_write ha hi, busWrite, if_neg fun hs => h0 ((selectOf_eq_zero_iff ha).1 hs)]

/-! ### Address bits (20_memory.md R51) -/

/-- The selector of an offset is its word index: bits [5:2]. -/
theorem toNat_selectOf (off : BitVec 6) : (selectOf off).toNat = off.toNat / 4 := by
  revert off
  decide

/-- Settles O17: the base is a multiple of 64, so it reaches neither the offset nor bits [5:2]. -/
theorem addressBitsSelectTheRegister : Obligations.AddressBitsSelectTheRegister := by
  refine ⟨Nat.mul_mod_right 64 _, fun off => ?_⟩
  have hoff : off.toNat < 64 := off.isLt
  rw [toNat_selectOf, busAddress, Config.ASCE_BASE]
  omega

end Sys2Proof.Machine
end

section
/-! PROOFS: the command words (30_encoding.md). First what `Decode` can do, said once over the three
formats (`decode_cases`); from it the inverse of the encoder (R77, R81), the opcode map (R75) and the
illegal words (R76). Last the step that executes a word (R82). -/

namespace Sys2Proof.Machine

/-! ### The fields of a word make the word (30_encoding.md R71 to R74) -/

/-- A word is its opcode below the other 24 bits. -/
theorem append_opcodeOf (w : Word) : w.extractLsb' 8 24 ++ opcodeOf w = w :=
  (BitVec.extractLsb'_append_extractLsb'_eq_extractLsb' rfl).trans BitVec.extractLsb'_eq_self

/-- A format-N word whose reserved bits are 0 is the word of its opcode. -/
theorem encodeN_opcodeOf {w : Word} (h : w.extractLsb' 8 24 = 0#24) :
    encodeN (opcodeOf w) = w := by
  rw [encodeN, ← h, append_opcodeOf]

/-- A format-B word whose reserved bits are 0 is the word of its opcode and byte. -/
theorem encodeB_fields {w : Word} (h : w.extractLsb' 16 16 = 0#16) :
    encodeB (opcodeOf w) (byteField w) = w := by
  have hhigh : w.extractLsb' 16 16 ++ byteField w = w.extractLsb' 8 24 :=
    BitVec.extractLsb'_append_extractLsb'_eq_extractLsb' rfl
  rw [encodeB, ← h, hhigh, append_opcodeOf]

/-- A format-I word whose reserved bits are 0 is the word of its opcode and index. -/
theorem encodeI_fields {w : Word} (h : w.extractLsb' 24 8 = 0#8) :
    encodeI (opcodeOf w) (indexField w) = w := by
  have hhigh : w.extractLsb' 24 8 ++ indexField w = w.extractLsb' 8 24 :=
    BitVec.extractLsb'_append_extractLsb'_eq_extractLsb' rfl
  rw [encodeI, ← h, hhigh, append_opcodeOf]

/-- The opcode is the word modulo 256. -/
theorem toNat_opcodeOf (w : Word) : (opcodeOf w).toNat = w.toNat % 256 := by
  simp [opcodeOf, BitVec.extractLsb'_toNat]

/-- The bits from `k` up are 0 exactly when the word is below `2 ^ k`. -/
theorem extractLsb'_eq_zero_iff (w : Word) {k n : Nat} (hk : k + n = 32) :
    w.extractLsb' k n = 0#n ↔ w.toNat / 2 ^ k = 0 := by
  have hlt : w.toNat / 2 ^ k < 2 ^ n := by
    rw [Nat.div_lt_iff_lt_mul (Nat.two_pow_pos k), ← Nat.pow_add, Nat.add_comm n k, hk]
    exact w.isLt
  rw [← BitVec.toNat_inj, BitVec.extractLsb'_toNat, Nat.shiftRight_eq_div_pow, Nat.mod_eq_of_lt hlt,
    BitVec.toNat_zero]

/-! ### What a format answers -/

/-- A format's test answers the command where the reserved bits are 0. -/
theorem reservedTest_eq_command {p : Prop} [Decidable p] {i j : Instr} :
    (if p then Decoded.command i else .illegal .reservedBits) = .command j ↔ p ∧ i = j := by
  by_cases hp : p <;> simp [hp]

/-- A format's test finds a word illegal only for its reserved bits. -/
theorem reservedTest_eq_illegal {p : Prop} [Decidable p] {i : Instr} {why : IllegalReason} :
    (if p then Decoded.command i else .illegal .reservedBits) = .illegal why ↔
      why = .reservedBits ∧ ¬ p := by
  by_cases hp : p <;> simp [hp, eq_comm]

theorem formatN_eq_command {w : Word} {i j : Instr} (h : formatN w i = .command j) :
    i = j ∧ encodeN (opcodeOf w) = w := by
  obtain ⟨hres, hj⟩ := reservedTest_eq_command.1 h
  exact ⟨hj, encodeN_opcodeOf hres⟩

theorem formatB_eq_command {w : Word} {f : Byte → Instr} {j : Instr} (h : formatB w f = .command j) :
    f (byteField w) = j ∧ encodeB (opcodeOf w) (byteField w) = w := by
  obtain ⟨hres, hj⟩ := reservedTest_eq_command.1 h
  exact ⟨hj, encodeB_fields hres⟩

theorem formatI_eq_command {w : Word} {f : BitVec 16 → Instr} {j : Instr}
    (h : formatI w f = .command j) :
    f (indexField w) = j ∧ encodeI (opcodeOf w) (indexField w) = w := by
  obtain ⟨hres, hj⟩ := reservedTest_eq_command.1 h
  exact ⟨hj, encodeI_fields hres⟩

@[simp] theorem formatN_eq_illegal (w : Word) (i : Instr) (why : IllegalReason) :
    formatN w i = .illegal why ↔ why = .reservedBits ∧ w.toNat / 2 ^ 8 ≠ 0 := by
  rw [formatN, reservedTest_eq_illegal, extractLsb'_eq_zero_iff w rfl]

@[simp] theorem formatB_eq_illegal (w : Word) (f : Byte → Instr) (why : IllegalReason) :
    formatB w f = .illegal why ↔ why = .reservedBits ∧ w.toNat / 2 ^ 16 ≠ 0 := by
  rw [formatB, reservedTest_eq_illegal, extractLsb'_eq_zero_iff w rfl]

@[simp] theorem formatI_eq_illegal (w : Word) (f : BitVec 16 → Instr) (why : IllegalReason) :
    formatI w f = .illegal why ↔ why = .reservedBits ∧ w.toNat / 2 ^ 24 ≠ 0 := by
  rw [formatI, reservedTest_eq_illegal, extractLsb'_eq_zero_iff w rfl]

/-! ### What `Decode` can do -/

/-- The opcodes of format N (30_encoding.md R75). -/
def opcodesN : List Nat := [0x00, 0x01, 0x10, 0x12, 0x18, 0x1B, 0x20, 0x30, 0x31, 0x32]

/-- The opcodes of format B (30_encoding.md R75). -/
def opcodesB : List Nat := [0x11, 0x19, 0x33]

/-- The opcodes of format I (30_encoding.md R75). -/
def opcodesI : List Nat := [0x1A, 0x21]

/-- What `Decode` can answer for a word: what the format of its opcode makes of it, for a command
whose words have that opcode in that format; or that the opcode is assigned to no command. -/
inductive DecodesBy (w : Word) : Decoded → Prop
  | formatN {i : Instr} : (opcodeOf w).toNat ∈ opcodesN → encode i = encodeN (opcodeOf w) →
      DecodesBy w (formatN w i)
  | formatB {f : Byte → Instr} : (opcodeOf w).toNat ∈ opcodesB →
      (∀ b, encode (f b) = encodeB (opcodeOf w) b) → DecodesBy w (formatB w f)
  | formatI {f : BitVec 16 → Instr} : (opcodeOf w).toNat ∈ opcodesI →
      (∀ idx, encode (f idx) = encodeI (opcodeOf w) idx) → DecodesBy w (formatI w f)
  | unassigned : (opcodeOf w).toNat ∉ opcodesN ++ opcodesB ++ opcodesI →
      DecodesBy w (.illegal .unassignedOpcode)

/-- The opcode alone selects the command and its format (30_encoding.md R71). -/
theorem decode_cases (w : Word) : DecodesBy w (decode w) := by
  have hop : BitVec.ofNat 8 (opcodeOf w).toNat = opcodeOf w := BitVec.ofNat_toNat _ _
  unfold decode
  split
  case h_1 h | h_2 h | h_3 h | h_5 h | h_6 h | h_9 h | h_10 h | h_12 h | h_13 h | h_14 h =>
    exact .formatN (by rw [h]; decide) (by rw [← hop, h]; rfl)
  case h_4 h | h_7 h | h_15 h =>
    exact .formatB (by rw [h]; decide) fun b => by rw [← hop, h]; rfl
  case h_8 h | h_11 h =>
    exact .formatI (by rw [h]; decide) fun idx => by rw [← hop, h]; rfl
  case h_16 => exact .unassigned (by simp_all [opcodesN, opcodesB, opcodesI])

/-! ### Legal words (30_encoding.md R77, R81) -/

/-- Settles O8: each command's word has its opcode, 0 in its reserved bits and its operand in its
field, so `Decode` reads the command back (`decode_encode`). -/
theorem decodeOfEncodeIsTheCommand : Obligations.DecodeOfEncodeIsTheCommand := decode_encode

/-- A legal word's fields make the word, and they are the fields of its command's word. -/
theorem eq_encode_of_decode {w : Word} {j : Instr} (h : decode w = .command j) : w = encode j := by
  have hcases := decode_cases w
  generalize decode w = d at h hcases
  cases hcases with
  | formatN _ henc =>
    obtain ⟨rfl, hw⟩ := formatN_eq_command h
    rw [henc, hw]
  | formatB _ henc =>
    obtain ⟨rfl, hw⟩ := formatB_eq_command h
    rw [henc, hw]
  | formatI _ henc =>
    obtain ⟨rfl, hw⟩ := formatI_eq_command h
    rw [henc, hw]
  | unassigned _ => cases h

/-- Settles O9. -/
theorem legalWordIsTheWordOfItsCommand : Obligations.LegalWordIsTheWordOfItsCommand :=
  fun _ _ => eq_encode_of_decode

/-! ### The opcode map (30_encoding.md R75) -/

/-- Every row of the table is the row of a command. -/
theorem exists_rowOf_eq : ∀ r ∈ opcodeTable, ∃ i, rowOf i = r := by
  simp only [opcodeTable, List.forall_mem_cons]
  exact ⟨⟨.nop, rfl⟩, ⟨.clrErr, rfl⟩, ⟨.ksClr, rfl⟩, ⟨.ksPush 0, rfl⟩, ⟨.kdParse, rfl⟩,
    ⟨.kbClr, rfl⟩, ⟨.kbPush 0, rfl⟩, ⟨.kbRead 0, rfl⟩, ⟨.kdValidate, rfl⟩, ⟨.engNew, rfl⟩,
    ⟨.keyRead 0, rfl⟩, ⟨.msgEnc, rfl⟩, ⟨.msgDec, rfl⟩, ⟨.msgEnd, rfl⟩, ⟨.xfer 0, rfl⟩,
    List.forall_mem_nil _⟩

/-- A command's row stands in the table and selects the command's word. -/
theorem rowOf_selects_encode (i : Instr) :
    rowOf i ∈ opcodeTable ∧ encode i &&& (rowOf i).mask = (rowOf i).pattern := by
  have hrow : Laws.TableRow.Statement i := by
    cases i with
    | nop => exact Laws.TableRow.nop
    | clrErr => exact Laws.TableRow.clrErr
    | ksClr => exact Laws.TableRow.ksClr
    | ksPush b => exact Laws.TableRow.ksPush b
    | kdParse => exact Laws.TableRow.kdParse
    | kbClr => exact Laws.TableRow.kbClr
    | kbPush b => exact Laws.TableRow.kbPush b
    | kbRead idx => exact Laws.TableRow.kbRead idx
    | kdValidate => exact Laws.TableRow.kdValidate
    | engNew => exact Laws.TableRow.engNew
    | keyRead idx => exact Laws.TableRow.keyRead idx
    | msgEnc => exact Laws.TableRow.msgEnc
    | msgDec => exact Laws.TableRow.msgDec
    | msgEnd => exact Laws.TableRow.msgEnd
    | xfer d => exact Laws.TableRow.xfer d
  obtain ⟨hsel, hmem⟩ := hrow
  exact ⟨hmem, eq_of_beq hsel⟩

/-- A field that a mask keeps whole is the field of the masked word. -/
theorem extractLsb'_and_mask (w : Word) {mask : Word} {k n : Nat}
    (hm : mask.extractLsb' k n = BitVec.allOnes n) :
    (w &&& mask).extractLsb' k n = w.extractLsb' k n := by
  rw [BitVec.extractLsb'_and, hm, BitVec.and_allOnes]

/-- The mask of format N keeps every bit. -/
theorem eq_of_maskN {w p : Word} (h : w &&& 0xFFFFFFFF#32 = p) : w = p :=
  (BitVec.and_allOnes (x := w)).symm.trans h

/-- The mask of format B keeps the opcode and the reserved bits, so the byte field is free. -/
theorem eq_encodeB_of_mask {w : Word} {op : BitVec 8} (h : w &&& 0xFFFF00FF#32 = encodeN op) :
    w = encodeB op (byteField w) := by
  have hop : opcodeOf w = op := by
    rw [opcodeOf, ← extractLsb'_and_mask w (mask := 0xFFFF00FF#32) rfl, h]
    exact opcodeOf_encodeN op
  have hres : w.extractLsb' 16 16 = 0#16 := by
    rw [← extractLsb'_and_mask w (mask := 0xFFFF00FF#32) rfl, h]
    exact reserved_encodeB op 0#8
  rw [← hop, encodeB_fields hres]

/-- The mask of format I keeps the opcode and the reserved bits, so the index field is free. -/
theorem eq_encodeI_of_mask {w : Word} {op : BitVec 8} (h : w &&& 0xFF0000FF#32 = encodeN op) :
    w = encodeI op (indexField w) := by
  have hop : opcodeOf w = op := by
    rw [opcodeOf, ← extractLsb'_and_mask w (mask := 0xFF0000FF#32) rfl, h]
    exact opcodeOf_encodeN op
  have hres : w.extractLsb' 24 8 = 0#8 := by
    rw [← extractLsb'_and_mask w (mask := 0xFF0000FF#32) rfl, h]
    exact reserved_encodeI op 0#16
  rw [← hop, encodeI_fields hres]

/-- A word that a command's row selects is the word of a command of that row. -/
theorem exists_encode_of_selects (i : Instr) {w : Word}
    (h : w &&& (rowOf i).mask = (rowOf i).pattern) : ∃ j, w = encode j ∧ rowOf j = rowOf i := by
  cases i with
  | nop | clrErr | ksClr | kdParse | kbClr | kdValidate | engNew | msgEnc | msgDec | msgEnd =>
    obtain rfl := eq_of_maskN h
    exact ⟨_, rfl, rfl⟩
  | ksPush _ => exact ⟨.ksPush (byteField w), eq_encodeB_of_mask h, rfl⟩
  | kbPush _ => exact ⟨.kbPush (byteField w), eq_encodeB_of_mask h, rfl⟩
  | xfer _ => exact ⟨.xfer (byteField w), eq_encodeB_of_mask h, rfl⟩
  | kbRead _ => exact ⟨.kbRead (indexField w), eq_encodeI_of_mask h, rfl⟩
  | keyRead _ => exact ⟨.keyRead (indexField w), eq_encodeI_of_mask h, rfl⟩

/-- Settles O10: legal words are the words of commands, and those are what the rows select. -/
theorem decodeFollowsTheOpcodeMap : Obligations.DecodeFollowsTheOpcodeMap := by
  refine ⟨fun w i h => ?_, fun w r hr h => ?_⟩
  · rw [eq_encode_of_decode h]
    exact rowOf_selects_encode i
  · obtain ⟨i, rfl⟩ := exists_rowOf_eq r hr
    obtain ⟨j, rfl, hrow⟩ := exists_encode_of_selects i h
    exact ⟨j, decode_encode j, hrow⟩

/-! ### Illegal words (30_encoding.md R76) -/

/-- An opcode has at most one format. -/
theorem opcodes_disjoint :
    (∀ op ∈ opcodesN, op ∉ opcodesB ∧ op ∉ opcodesI) ∧
    (∀ op ∈ opcodesB, op ∉ opcodesN ∧ op ∉ opcodesI) ∧
    (∀ op ∈ opcodesI, op ∉ opcodesN ∧ op ∉ opcodesB) := by decide

theorem decode_unassigned_iff (w : Word) :
    decode w = .illegal .unassignedOpcode ↔
      (opcodeOf w).toNat ∉ opcodesN ++ opcodesB ++ opcodesI := by
  have hcases := decode_cases w
  generalize decode w = d at hcases
  cases hcases with
  | formatN hop _ => simp [hop]
  | formatB hop _ => simp [hop]
  | formatI hop _ => simp [hop]
  | unassigned hop => simp only [hop, not_false_eq_true]

theorem decode_reservedBits_iff (w : Word) :
    decode w = .illegal .reservedBits ↔
      ((opcodeOf w).toNat ∈ opcodesN ∧ w.toNat / 2 ^ 8 ≠ 0) ∨
      ((opcodeOf w).toNat ∈ opcodesB ∧ w.toNat / 2 ^ 16 ≠ 0) ∨
      ((opcodeOf w).toNat ∈ opcodesI ∧ w.toNat / 2 ^ 24 ≠ 0) := by
  obtain ⟨hN, hB, hI⟩ := opcodes_disjoint
  have hcases := decode_cases w
  generalize decode w = d at hcases
  cases hcases with
  | formatN hop _ => simp [hop, hN _ hop]
  | formatB hop _ => simp [hop, hB _ hop]
  | formatI hop _ => simp [hop, hI _ hop]
  | unassigned hop => simp_all

/-- The opcodes of no command are five ranges. -/
theorem notMem_opcodes_iff {op : Nat} :
    op ∉ opcodesN ++ opcodesB ++ opcodesI ↔
      (0x02 ≤ op ∧ op ≤ 0x0F) ∨ (0x13 ≤ op ∧ op ≤ 0x17) ∨ (0x1C ≤ op ∧ op ≤ 0x1F) ∨
      (0x22 ≤ op ∧ op ≤ 0x2F) ∨ 0x34 ≤ op := by
  simp only [opcodesN, opcodesB, opcodesI, List.mem_append, List.mem_cons,
    List.not_mem_nil, or_false]
  omega

/-! ### The step that executes a word (30_encoding.md R82) -/

/-- A step whose next access is a write of `w` to `CMD` executes `w`. -/
theorem step_command {s : State} {w : Word} {rest : List HostEvent}
    (hi : s.inputs = HostEvent.command w :: rest) : step s = execute w { s with inputs := rest } := by
  rw [step_cons hi, serve_command]

/-- While a fault is recorded the step clears it for `CLR_ERR`, and drops every other word. -/
theorem step_command_faulted {s : State} {w : Word} {rest : List HostEvent}
    (hi : s.inputs = HostEvent.command w :: rest) (he : s.err ≠ none) :
    step s = .next (if w = clrErrWord then clearFault { s with inputs := rest }
      else { s with inputs := rest }) :=
  (step_command hi).trans (execute_faulted he)

/-- The one word that acts while a fault is recorded is legal. -/
theorem ne_clrErrWord_of_illegal {w : Word} {why : IllegalReason} (h : decode w = .illegal why) :
    w ≠ clrErrWord := by
  rintro rfl
  cases (decode_encode .clrErr).symm.trans h

/-- Settles O11: the opcode decides the first kind of illegal word and, with the reserved bits of
its format, the second; `CLR_ERR` is neither, so an illegal word is dropped in drop mode. -/
theorem illegalWordsAreThoseOfTheRule : Obligations.IllegalWordsAreThoseOfTheRule := by
  refine ⟨fun w => ?_, fun w => ?_, fun s w why rest hd hi => ⟨fun he => ?_, fun he => ?_⟩⟩
  · rw [decode_unassigned_iff, notMem_opcodes_iff, toNat_opcodeOf]
  · rw [decode_reservedBits_iff, toNat_opcodeOf]
    rfl
  · exact (step_command hi).trans (execute_illegal he hd)
  · rw [step_command_faulted hi he, if_neg (ne_clrErrWord_of_illegal hd)]

/-- Settles O12. -/
theorem writtenWordsDecodeToTheirCommands : Obligations.WrittenWordsDecodeToTheirCommands := by
  unfold Obligations.WrittenWordsDecodeToTheirCommands
  decide

/-- Settles O13. -/
theorem stepRunsTheDecodedCommand : Obligations.StepRunsTheDecodedCommand := by
  intro s w rest hi
  refine ⟨fun i he hd => ?_, fun why he hd => ?_, fun he => ?_⟩
  · exact (step_command hi).trans (execute_command he hd)
  · exact (step_command hi).trans (execute_illegal he hd)
  · rw [step_command_faulted hi he, clrErrWord]
    split_ifs <;> rfl

end Sys2Proof.Machine
end

section
/-! PROOFS: key derivation (40_key_derivation.md). The digit strings of R100 and the values of R103,
computed by value and byte by byte; the commands that load and parse a key specification (R101 to
R105) and those on the key bytes (R106 to R108); and the correspondence with the source's `parse_key`
(R110). -/

namespace Sys2Proof.Machine

/-! ### Digit strings (40_key_derivation.md R100) -/

theorem isDigit_iff (b : Byte) : isDigit b = true ↔ 0x30 ≤ b.toNat ∧ b.toNat ≤ 0x39 := by
  simp [isDigit]

theorem isDec_iff (s : List Byte) : isDec s = true ↔ s ≠ [] ∧ ∀ b ∈ s, isDigit b = true := by
  simp [isDec, Nat.one_le_iff_ne_zero]

/-- Settles O29. -/
theorem isDecHoldsExactlyOfDigitStrings : Obligations.IsDecHoldsExactlyOfDigitStrings := by
  intro s
  rw [isDec_iff, List.forall_mem_iff_forall_getElem, ← List.length_pos_iff]
  simp only [isDigit_iff, Nat.succ_le_iff]

/-! ### The bytes of a decimal value (40_key_derivation.md R103) -/

/-- The value of a digit string is the rule's sum. -/
theorem decValue_eq_sum (s : List Byte) :
    decValue s = ∑ j : Fin s.length, (s[j].toNat - 0x30) * 10 ^ (s.length - 1 - j) := by
  induction s with
  | nil => rfl
  | cons b s ih =>
    have hexp (j : Fin s.length) : s.length - (j + 1) = s.length - 1 - j := by omega
    simp [decValue, Fin.sum_univ_succ, hexp, ih]

/-- Byte `j` of a big-endian sequence is the rule's. -/
theorem toNat_getElem_bigEndian (m v : Nat) {j : Nat} (h : j < (bigEndian m v).length) :
    (bigEndian m v)[j].toNat = v / 256 ^ (m - 1 - j) % 256 := by
  simp [bigEndian]

/-- The first byte of a big-endian sequence, with the bytes after it. -/
theorem bigEndian_succ_front (m v : Nat) :
    bigEndian (m + 1) v = BitVec.ofNat 8 (v / 256 ^ m % 256) :: bigEndian m v := by
  unfold bigEndian
  rw [List.range_succ_eq_map, List.map_cons, List.map_map]
  congr 1
  apply List.map_congr_left
  intro j _
  simp [Nat.sub_sub, Nat.add_comm 1 j]

/-- The minimal bytes of a value spell it in base 256. -/
theorem ofDigits_minimalBigEndian (v : Nat) :
    Nat.ofDigits 256 ((minimalBigEndian v).reverse.map BitVec.toNat) = v := by
  have hbyte : ∀ d ∈ Nat.digits 256 v, (BitVec.toNat ∘ BitVec.ofNat 8) d = id d := fun d hd =>
    Nat.mod_eq_of_lt (Nat.digits_lt_base (by decide) hd)
  rw [minimalBigEndian, ← List.map_reverse, List.reverse_reverse, List.map_map,
    List.map_congr_left hbyte, List.map_id, Nat.ofDigits_digits]

/-- A positive value needs a byte, and with one byte fewer it would not fit. -/
theorem byteCount_of_pos {v : Nat} (hv : 0 < v) : ∃ m, byteCount v = m + 1 ∧ 256 ^ m ≤ v := by
  have hm : byteCount v = byteCount (v / 256) + 1 := byteCount_div hv
  refine ⟨byteCount (v / 256), hm, Nat.le_of_not_lt fun hlt => ?_⟩
  have hle : byteCount v ≤ byteCount (v / 256) := byteCount_le.2 hlt
  omega

/-- The bytes of a positive value start with a byte that is not zero. -/
theorem bigEndian_byteCount_of_pos {v : Nat} (hv : 0 < v) :
    ∃ b bs, bigEndian (byteCount v) v = b :: bs ∧ b ≠ 0#8 := by
  obtain ⟨m, hm, hle⟩ := byteCount_of_pos hv
  have hfront : 0 < v / 256 ^ m := Nat.div_pos hle (by positivity)
  have hlt : v / 256 ^ m < 256 := by
    have hfit := lt_pow_byteCount v
    rw [hm, Nat.pow_succ] at hfit
    exact Nat.div_lt_of_lt_mul hfit
  refine ⟨_, _, by rw [hm, bigEndian_succ_front], fun h0 => ?_⟩
  have hzero : v / 256 ^ m % 256 = 0 := by simpa using congrArg BitVec.toNat h0
  omega

/-- Settles O30, with `v` the value of the digits and `m` the byte count of `v`. -/
theorem decToBytesIsTheMinimalBigEndianValue : Obligations.DecToBytesIsTheMinimalBigEndianValue := by
  intro s _
  refine ⟨decValue s, byteCount (decValue s), decValue_eq_sum s, ?_, length_bigEndian _ _,
    fun j h => toNat_getElem_bigEndian _ _ h, ?_, bigEndian_byteCount_of_pos, ?_⟩
  · rw [byteCount, bitlen_eq_size]
  · rw [decToBytes, bigEndian_eq_minimalBigEndian, ofDigits_minimalBigEndian]
  · intro h0
    rw [decToBytes, h0]
    rfl

/-! ### The byte-serial algorithm (40_key_derivation.md R103, informative) -/

/-- The inner loop meets the last byte first. -/
theorem serialStep_append (acc : List Byte) (b : Byte) (carry : Nat) :
    serialStep (acc ++ [b]) carry =
      ((serialStep acc ((b.toNat * 10 + carry) / 256)).1 ++
        [BitVec.ofNat 8 ((b.toNat * 10 + carry) % 256)],
       (serialStep acc ((b.toNat * 10 + carry) / 256)).2) := by
  induction acc with
  | nil => rfl
  | cons a acc ih => simp [serialStep, ih]

/-- The inner loop multiplies by ten and adds, in place: what does not fit in the bytes is the carry
left at the front. -/
theorem serialStep_bigEndian {m v : Nat} (h : v < 256 ^ m) (carry : Nat) :
    serialStep (bigEndian m v) carry =
      (bigEndian m (v * 10 + carry), (v * 10 + carry) / 256 ^ m) := by
  induction m generalizing v carry with
  | zero =>
    obtain rfl : v = 0 := by simpa using h
    simp [bigEndian_zero, serialStep]
  | succ m ih =>
    have hdiv : v / 256 < 256 ^ m := by
      rw [Nat.pow_succ'] at h
      exact Nat.div_lt_of_lt_mul h
    have hq : v / 256 * 10 + (v % 256 * 10 + carry) / 256 = (v * 10 + carry) / 256 := by omega
    have hr : (v % 256 * 10 + carry) % 256 = (v * 10 + carry) % 256 := by omega
    rw [bigEndian_succ, bigEndian_succ, serialStep_append, BitVec.toNat_ofNat, Nat.mod_mod,
      ih hdiv, hq, hr, Nat.div_div_eq_div_mul, Nat.pow_succ']

/-- One digit takes the minimal bytes of a value to those of ten times the value plus the digit. -/
theorem serialDigit_bigEndian (v : Nat) {b : Byte} (hb : b.toNat ≤ 0x39) :
    serialDigit (bigEndian (byteCount v) v) b =
      bigEndian (byteCount (v * 10 + (b.toNat - 0x30))) (v * 10 + (b.toNat - 0x30)) := by
  have hfit := lt_pow_byteCount v
  rw [serialDigit, serialStep_bigEndian hfit]
  generalize hw : v * 10 + (b.toNat - 0x30) = w
  by_cases hcarry : w / 256 ^ byteCount v = 0
  · have hle : byteCount w ≤ byteCount v :=
      byteCount_le.2 ((Nat.div_eq_zero_iff_lt (by positivity)).1 hcarry)
    have hge : byteCount v ≤ byteCount w :=
      byteCount_le.2 (Nat.lt_of_le_of_lt (by omega) (lt_pow_byteCount w))
    simp [hcarry, le_antisymm hle hge]
  · have hlt : w / 256 ^ byteCount v < 256 := Nat.div_lt_of_lt_mul (by omega)
    have hcount : byteCount w = byteCount v + 1 := by
      apply le_antisymm
      · rw [byteCount_le, Nat.pow_succ]
        omega
      · rw [Nat.succ_le_iff, ← Nat.not_le, byteCount_le, ← Nat.div_eq_zero_iff_lt (by positivity)]
        exact hcarry
    rw [hcount, bigEndian_succ_front, Nat.mod_eq_of_lt hlt]
    simp [hcarry]

/-- Settles O32, by induction on the digits read so far. -/
theorem serialAlgorithmComputesDecToBytes : Obligations.SerialAlgorithmComputesDecToBytes := by
  intro s hs
  obtain ⟨-, hdig⟩ := (isDec_iff s).1 hs
  clear hs
  induction s using List.reverseRecOn with
  | nil => rfl
  | append_singleton s b ih =>
    have hb : b.toNat ≤ 0x39 := ((isDigit_iff b).1 (hdig b (by simp))).2
    have ih := ih fun c hc => hdig c (by simp [hc])
    rw [decToBytesSerial] at ih ⊢
    rw [List.foldl_append, ih, decToBytes, decToBytes, decValue_append]
    exact serialDigit_bigEndian _ hb

/-! ### Words with an operand (30_encoding.md R73, R74) -/

/-- A format-B word is its opcode with the byte in bits [15:8]. -/
theorem encodeB_eq_or (op : BitVec 8) (b : Byte) :
    encodeB op b = op.setWidth 32 ||| (b.setWidth 32 <<< 8) := by
  rw [encodeB, ← BitVec.setWidth_eq (_ ++ _), BitVec.setWidth_append_append_eq_shiftLeft_setWidth_or]
  simp [BitVec.or_comm]

/-- A format-I word is its opcode with the index in bits [23:8]. -/
theorem encodeI_eq_or (op : BitVec 8) (idx : BitVec 16) :
    encodeI op idx = op.setWidth 32 ||| (idx.setWidth 32 <<< 8) := by
  rw [encodeI, ← BitVec.setWidth_eq (_ ++ _), BitVec.setWidth_append_append_eq_shiftLeft_setWidth_or]
  simp [BitVec.or_comm]

/-! ### Loading a key specification (40_key_derivation.md R101, R102) -/

/-- A guarded command with its cause takes the fault. -/
theorem Guarded.exec_of_cause {i : Instr} {s : State} {cause : Prop} {c : ErrCode} {j : Nat}
    (g : Guarded i s cause c j) (hc : cause) : exec i s = .next (raiseFault c s) := by
  obtain ⟨-, hx⟩ := g.fault hc
  exact hx

/-- A guarded command without its cause completes, if the byte it guards exists. -/
theorem Guarded.exec_of_no_cause {i : Instr} {s : State} {cause : Prop} {c : ErrCode} {j : Nat}
    (g : Guarded i s cause c j) (hc : ¬ cause) (hj : j < Config.CAP) :
    exec i s = .next (completed i s) := by
  obtain ⟨-, hx⟩ := g.complete hc
  rw [hx, ifByteExists_of_lt hj]

theorem Memory.read_write_same {m : Memory} (hm : Memory.wf m) (a : Nat) (b : Byte) :
    Memory.read (Memory.write m a b) a = b := by
  rw [Memory.read_write hm, if_pos rfl]

theorem Memory.read_write_of_ne {m : Memory} (hm : Memory.wf m) {a j : Nat} (b : Byte)
    (h : j ≠ a) : Memory.read (Memory.write m a b) j = Memory.read m j := by
  rw [Memory.read_write hm, if_neg h]

/-- Settles O26. -/
theorem ksClrEmptiesTheSpecification : Obligations.KsClrEmptiesTheSpecification :=
  ⟨rfl, fun _ => rfl⟩

/-- Settles O27. -/
theorem ksPushAppendsOneByte : Obligations.KsPushAppendsOneByte := by
  intro s b h
  refine ⟨encodeB_eq_or _ b, fun hlt => ?_, fun hcap => (guarded_ksPush b s).exec_of_cause hcap⟩
  exact ⟨_, (guarded_ksPush b s).exec_of_no_cause hlt.ne hlt, Memory.read_write_same h.ks_wf _ b,
    fun a => Memory.read_write_of_ne h.ks_wf b⟩

/-! ### Parsing a key specification (40_key_derivation.md R104, R105) -/

theorem parseBytes_of_isDec {s : List Byte} (h : isDec s = true) : parseBytes s = decToBytes s :=
  if_pos h

theorem parseBytes_of_not_isDec {s : List Byte} (h : isDec s = false) : parseBytes s = s :=
  if_neg (by simp [h])

/-- From a state that meets the invariant `KD_PARSE` completes. -/
theorem exec_kdParse {s : State} (h : s.Inv) : exec .kdParse s = .next (completed .kdParse s) :=
  exec_of_inv h .kdParse

/-- After `KD_PARSE` the key bytes are the parse of the specification. -/
theorem keyBytes_completed_kdParse {s : State} (h : s.Inv) :
    (completed .kdParse s).keyBytes = parseBytes s.specBytes :=
  Memory.bytes_writeFrom h.kb_wf _

/-- Settles O28. -/
theorem kdParseWritesTheParsedKey : Obligations.KdParseWritesTheParsedKey := by
  refine ⟨rfl, fun s h => ⟨_, _, exec_kdParse h, keyBytes_completed_kdParse h, fun a ha => ?_⟩⟩
  rw [Memory.read_writeFrom h.kb_wf, if_neg (by omega)]

/-- The parse of a specification is no longer than its length register says. -/
theorem length_parseBytes_specBytes_le (s : State) : (parseBytes s.specBytes).length ≤ s.kslen :=
  (length_parseBytes_le _).trans_eq (Memory.length_bytes _ _)

/-- Settles O31. -/
theorem parsedKeyIsNoLongerThanTheSpecification :
    Obligations.ParsedKeyIsNoLongerThanTheSpecification := by
  refine ⟨fun s hdec => ?_, fun s htext => ?_, fun s t hx => ?_, fun s h => ?_⟩
  · rw [← parseBytes_of_isDec hdec]
    exact length_parseBytes_le s
  · rw [parseBytes_of_not_isDec htext]
  · rw [exec_eq_next hx]
    exact length_parseBytes_specBytes_le s
  · exact ⟨_, exec_kdParse h, rfl, (length_parseBytes_specBytes_le s).trans h.kslen_le⟩

/-! ### The key bytes (40_key_derivation.md R106 to R108) -/

/-- Settles O34. -/
theorem kbClrEmptiesTheKeyBytes : Obligations.KbClrEmptiesTheKeyBytes := ⟨rfl, fun _ => rfl⟩

/-- Settles O35. -/
theorem kbPushAppendsOneByte : Obligations.KbPushAppendsOneByte := by
  intro s b h
  refine ⟨encodeB_eq_or _ b, fun hlt => ?_, fun hcap => (guarded_kbPush b s).exec_of_cause hcap⟩
  exact ⟨_, (guarded_kbPush b s).exec_of_no_cause hlt.ne hlt, Memory.read_write_same h.kb_wf _ b,
    fun a => Memory.read_write_of_ne h.kb_wf b⟩

/-- Settles O36. -/
theorem kbReadReadsOneByteIntoRes : Obligations.KbReadReadsOneByteIntoRes := by
  intro s idx h
  refine ⟨encodeI_eq_or _ idx, fun hidx => ?_, fun hle => (guarded_kbRead idx s).exec_of_cause hle⟩
  have hlt : idx.toNat < s.kblen := by simpa [State.keyBytes] using hidx
  have hbyte : s.keyBytes[idx.toNat] = Memory.read s.kb idx.toNat := Memory.getElem_bytes _ _ _ hidx
  rw [hbyte]
  exact (guarded_kbRead idx s).exec_of_no_cause hlt.not_ge (hlt.trans_le h.kblen_le)

/-! ### Loading a text (40_key_derivation.md R109) -/

/-- A specification has been loaded: its bytes stand in `KS[0..KSLEN)` and no fault is recorded. -/
structure Loaded (spec : List Byte) (s : State) : Prop where
  inv : s.Inv
  err : s.err = none
  specBytes : s.specBytes = spec

theorem Loaded.kslen_eq {spec : List Byte} {s : State} (h : Loaded spec s) :
    s.kslen = spec.length := by
  rw [← h.specBytes, State.specBytes, Memory.length_bytes]

/-- `KS_CLR` loads the empty specification. -/
theorem loaded_ksClr {s : State} (h : s.Inv) (he : s.err = none) :
    Loaded [] (completed .ksClr s) where
  inv := completed_inv h rfl
  err := he
  specBytes := rfl

/-- `KS_PUSH` below `CAP` loads one more byte. -/
theorem Loaded.ksPush {spec : List Byte} {s : State} (h : Loaded spec s)
    (hcap : spec.length < Config.CAP) (b : Byte) :
    ∃ t, exec (.ksPush b) s = .next t ∧ Loaded (spec ++ [b]) t := by
  rw [← h.kslen_eq] at hcap
  refine ⟨_, (guarded_ksPush b s).exec_of_no_cause hcap.ne hcap, ?_⟩
  exact {
    inv := completed_inv h.inv (if_neg hcap.ne)
    err := h.err
    specBytes := (Memory.bytes_write_end h.inv.ks_wf _ b).trans (congrArg (· ++ [b]) h.specBytes) }

/-- One `KS_PUSH` per byte loads a sequence that fits, and the run goes on from there. -/
theorem Loaded.runEvents_ksPush {spec : List Byte} {s : State} (h : Loaded spec s)
    {bs : List Byte} (hcap : (spec ++ bs).length ≤ Config.CAP) (is : List Instr) :
    ∃ t, Loaded (spec ++ bs) t ∧
      runEvents (commands (bs.map .ksPush ++ is)) s = runEvents (commands is) t := by
  induction bs generalizing spec s with
  | nil => exact ⟨s, by rwa [List.append_nil], rfl⟩
  | cons b bs ih =>
    have hlt : spec.length < Config.CAP := by
      rw [List.length_append, List.length_cons] at hcap
      omega
    obtain ⟨u, hx, hu⟩ := h.ksPush hlt b
    rw [List.append_cons] at hcap ⊢
    obtain ⟨t, ht, hrun⟩ := ih hu hcap
    refine ⟨t, ht, ?_⟩
    rw [List.map_cons, List.cons_append, runEvents_commands_cons h.err hx, hrun]

/-- `KS_STR` loads the UTF-8 bytes of a text that fits, and the run goes on from there
(30_encoding.md R80). -/
theorem runEvents_ksStr {s : State} (h : s.Inv) (he : s.err = none) {text : List Char}
    (hcap : (utf8 text).length ≤ Config.CAP) (is : List Instr) :
    ∃ t, Loaded (utf8 text) t ∧
      runEvents (commands ((Pseudo.ksStr text).expand ++ is)) s = runEvents (commands is) t := by
  obtain ⟨t, ht, hrun⟩ := (loaded_ksClr h he).runEvents_ksPush hcap is
  refine ⟨t, ht, ?_⟩
  rw [Pseudo.expand, List.cons_append, runEvents_commands_cons he (exec_of_inv h _)]
  exact hrun

/-! ### The UTF-8 bytes of a text (40_key_derivation.md R110) -/

theorem utf8_cons (c : Char) (text : List Char) : utf8 (c :: text) = utf8 [c] ++ utf8 text := by
  simp [utf8]

theorem utf8_append (text rest : List Char) : utf8 (text ++ rest) = utf8 text ++ utf8 rest := by
  simp [utf8]

theorem utf8_eq_nil_iff (text : List Char) : utf8 text = [] ↔ text = [] := by
  cases text with
  | nil => simp [utf8]
  | cons c text => simp [utf8, String.utf8EncodeChar_ne_nil]

/-- An ASCII character is one byte, its code. -/
theorem utf8_singleton_of_le {c : Char} (h : c.toNat ≤ 0x7F) :
    utf8 [c] = [BitVec.ofNat 8 c.toNat] := by
  have h : c.val.toNat ≤ 127 := h
  simp only [utf8, List.flatMap_singleton, String.utf8EncodeChar, if_pos h]
  rfl

/-- Any other character ends with a continuation byte, which is above the digits. -/
theorem exists_continuation_of_lt {c : Char} (h : 0x7F < c.toNat) :
    ∃ b ∈ utf8 [c], 0x80 ≤ b.toNat := by
  have h : ¬ c.val.toNat ≤ 127 := Nat.not_le.2 h
  refine ⟨(UInt8.ofNat (c.val.toNat % 64 + 128)).toBitVec, List.mem_map_of_mem ?_, ?_⟩
  · rw [List.flatMap_singleton, String.utf8EncodeChar, if_neg h]
    split_ifs <;> simp
  · rw [UInt8.toNat_toBitVec, UInt8.toNat_ofNat']
    omega

theorem char_isDigit_iff (c : Char) : c.isDigit = true ↔ 0x30 ≤ c.toNat ∧ c.toNat ≤ 0x39 := by
  simp [Char.isDigit, UInt32.le_iff_toNat_le]

/-- The bytes of a character are digits exactly when the character is one. -/
theorem forall_utf8_singleton_isDigit_iff (c : Char) :
    (∀ b ∈ utf8 [c], isDigit b = true) ↔ c.isDigit = true := by
  rw [char_isDigit_iff]
  by_cases hc : c.toNat ≤ 0x7F
  · rw [utf8_singleton_of_le hc, List.forall_mem_singleton, isDigit_iff, BitVec.toNat_ofNat,
      Nat.mod_eq_of_lt (by omega)]
  · obtain ⟨b, hb, hhigh⟩ := exists_continuation_of_lt (Nat.lt_of_not_le hc)
    refine ⟨fun hall => ?_, fun hdigit => by omega⟩
    obtain ⟨-, hle⟩ := (isDigit_iff b).1 (hall b hb)
    omega

theorem forall_utf8_isDigit_iff (text : List Char) :
    (∀ b ∈ utf8 text, isDigit b = true) ↔ text.all Char.isDigit = true := by
  induction text with
  | nil => simp [utf8]
  | cons c text ih =>
    rw [utf8_cons, List.forall_mem_append, forall_utf8_singleton_isDigit_iff, ih, List.all_cons,
      Bool.and_eq_true]

/-- The bytes of a text are a digit string exactly when the text is one. -/
theorem isDec_utf8_iff (text : List Char) :
    isDec (utf8 text) = true ↔ text ≠ [] ∧ text.all Char.isDigit = true := by
  rw [isDec_iff, forall_utf8_isDigit_iff, Ne, utf8_eq_nil_iff]

/-- The bytes of a digit text spell its value. -/
theorem decValue_utf8 {text : List Char} (h : text.all Char.isDigit = true) :
    decValue (utf8 text) = textValue text := by
  induction text using List.reverseRecOn with
  | nil => rfl
  | append_singleton text c ih =>
    rw [List.all_append, Bool.and_eq_true, List.all_cons, List.all_nil, Bool.and_true] at h
    obtain ⟨htext, hc⟩ := h
    have hle : c.toNat ≤ 0x39 := ((char_isDigit_iff c).1 hc).2
    have hdigit : '0'.toNat = 0x30 := rfl
    rw [utf8_append, utf8_singleton_of_le (by omega), decValue_append, ih htext, textValue,
      textValue, List.foldl_append, List.foldl_cons, List.foldl_nil, BitVec.toNat_ofNat,
      Nat.mod_eq_of_lt (by omega), Nat.mul_comm, hdigit]

/-- The parse of the UTF-8 bytes of a text is the source's `parse_key` of the text. -/
theorem parseBytes_utf8 (text : List Char) : parseBytes (utf8 text) = sourceParseKey text := by
  by_cases hdec : isDec (utf8 text) = true
  · have hdigits := (isDec_utf8_iff text).1 hdec
    rw [parseBytes_of_isDec hdec, decToBytes, bigEndian_eq_minimalBigEndian,
      decValue_utf8 hdigits.2, sourceParseKey, if_pos hdigits]
  · rw [parseBytes_of_not_isDec (Bool.eq_false_of_not_eq_true hdec), sourceParseKey,
      if_neg fun hdigits => hdec ((isDec_utf8_iff text).2 hdigits)]

/-- Settles O33: the pushes load the UTF-8 bytes, and `KD_PARSE` parses what they loaded. -/
theorem parseCommandsComputeParseKey : Obligations.ParseCommandsComputeParseKey := by
  intro s text h he hcap
  obtain ⟨t, ht, hrun⟩ := runEvents_ksStr h he hcap [.kdParse]
  refine ⟨{ completed .kdParse t with inputs := [] }, ?_, ht.err, ?_, ?_⟩
  · rw [hrun, runEvents_commands_cons ht.err (exec_kdParse ht.inv)]
    rfl
  · rw [← parseBytes_utf8, ← ht.specBytes]
    exact keyBytes_completed_kdParse ht.inv
  · rw [← isDec_utf8_iff, ← ht.specBytes]
    rfl

end Sys2Proof.Machine
end

section
/-! PROOFS: key validation (41_key_validation.md). The length verdict of R120 agrees with the source's
`validate_key`; both ways of loading a key end in that verdict (R121); and no command reads `VRES`
(R122) or `KDNUM` (10_state.md R25). -/

namespace Sys2Proof.Machine

/-! ### The length verdict (41_key_validation.md R120) -/

/-- Settles O37. -/
theorem kdValidateRecordsTheLengthVerdict : Obligations.KdValidateRecordsTheLengthVerdict := by
  refine ⟨rfl, fun s => ⟨verdictOf s.kblen, rfl, fun h0 => ?_, fun ⟨hpos, hle⟩ => ?_, fun hlt => ?_⟩⟩
  · rw [h0, verdictOf_zero, Verdict.code]
  · rw [verdictOf_of_le hpos hle, Verdict.code]
  · rw [verdictOf_of_lt hlt, Verdict.code]

/-! ### Loading a key and validating it (41_key_validation.md R121) -/

/-- The verdict on the length of a byte sequence is the one of `validate_key` on the sequence. -/
theorem verdictAgrees_verdictOf_length (k : List Byte) : verdictAgrees (verdictOf k.length) k := by
  rcases Nat.eq_zero_or_pos k.length with h0 | hpos
  · simp [verdictAgrees, sourceValidateKey, h0, verdictOf_zero, Verdict.code]
  · rcases Nat.lt_or_ge 1024 k.length with hlt | hle
    · simp [verdictAgrees, sourceValidateKey, hpos.ne', hlt, verdictOf_of_lt hlt, Verdict.code]
    · simp [verdictAgrees, sourceValidateKey, hpos.ne', hle.not_gt, verdictOf_of_le hpos hle,
        Verdict.code]

/-- A key has been loaded: its bytes stand in `KB[0..KBLEN)` and no fault is recorded. -/
structure KeyLoaded (key : List Byte) (s : State) : Prop where
  inv : s.Inv
  err : s.err = none
  keyBytes : s.keyBytes = key

theorem KeyLoaded.kblen_eq {key : List Byte} {s : State} (h : KeyLoaded key s) :
    s.kblen = key.length := by
  rw [← h.keyBytes, State.keyBytes, Memory.length_bytes]

/-- `KB_CLR` loads the empty key. -/
theorem keyLoaded_kbClr {s : State} (h : s.Inv) (he : s.err = none) :
    KeyLoaded [] (completed .kbClr s) where
  inv := completed_inv h rfl
  err := he
  keyBytes := rfl

/-- `KB_PUSH` below `CAP` loads one more byte. -/
theorem KeyLoaded.kbPush {key : List Byte} {s : State} (h : KeyLoaded key s)
    (hcap : key.length < Config.CAP) (b : Byte) :
    ∃ t, exec (.kbPush b) s = .next t ∧ KeyLoaded (key ++ [b]) t := by
  rw [← h.kblen_eq] at hcap
  refine ⟨_, (guarded_kbPush b s).exec_of_no_cause hcap.ne hcap, ?_⟩
  exact {
    inv := completed_inv h.inv (if_neg hcap.ne)
    err := h.err
    keyBytes := (Memory.bytes_write_end h.inv.kb_wf _ b).trans (congrArg (· ++ [b]) h.keyBytes) }

/-- `KD_PARSE` loads the parse of a loaded specification. -/
theorem Loaded.kdParse {spec : List Byte} {s : State} (h : Loaded spec s) :
    KeyLoaded (parseBytes spec) (completed .kdParse s) where
  inv := completed_inv h.inv rfl
  err := h.err
  keyBytes := h.specBytes ▸ keyBytes_completed_kdParse h.inv

/-- If one push appends one byte to what is held, a push per byte appends a sequence that fits, and
the run goes on from there. -/
theorem runEvents_pushes {push : Byte → Instr} {Holds : List Byte → State → Prop}
    (herr : ∀ {bs s}, Holds bs s → s.err = none)
    (hpush : ∀ {bs s}, Holds bs s → bs.length < Config.CAP → ∀ b,
      ∃ t, exec (push b) s = .next t ∧ Holds (bs ++ [b]) t)
    {held bs : List Byte} {s : State} (h : Holds held s)
    (hcap : (held ++ bs).length ≤ Config.CAP) (is : List Instr) :
    ∃ t, Holds (held ++ bs) t ∧
      runEvents (commands (bs.map push ++ is)) s = runEvents (commands is) t := by
  induction bs generalizing held s with
  | nil => exact ⟨s, by rwa [List.append_nil], rfl⟩
  | cons b bs ih =>
    rw [List.append_cons] at hcap ⊢
    have hlt : held.length < Config.CAP := by
      simp only [List.length_append, List.length_singleton] at hcap
      omega
    obtain ⟨u, hx, hu⟩ := hpush h hlt b
    obtain ⟨t, ht, hrun⟩ := ih hu hcap
    exact ⟨t, ht, (runEvents_commands_cons (herr h) hx _).trans hrun⟩

/-- `KD_VALIDATE` on a loaded key keeps the key, records no fault and leaves its verdict. -/
theorem KeyLoaded.runEvents_kdValidate {key : List Byte} {s : State} (h : KeyLoaded key s) :
    ∃ t, runEvents (commands [.kdValidate]) s = .next t ∧
      t.err = none ∧ t.keyBytes = key ∧ verdictAgrees t.vres key := by
  have hverdict : verdictAgrees (verdictOf s.kblen) key :=
    h.kblen_eq ▸ verdictAgrees_verdictOf_length key
  refine ⟨{ completed .kdValidate s with inputs := [] }, ?_, h.err, h.keyBytes, hverdict⟩
  rw [runEvents_commands_cons h.err (exec_of_inv h.inv _)]
  rfl

/-- Settles O38: both ways end with the key loaded and `KD_VALIDATE` still to run. -/
theorem validateCommandsComputeValidateKey : Obligations.ValidateCommandsComputeValidateKey := by
  refine ⟨fun s k h he hcap => ?_, fun s u h he hcap => ?_⟩
  · obtain ⟨t, ht, hrun⟩ :=
      runEvents_pushes KeyLoaded.err KeyLoaded.kbPush (keyLoaded_kbClr h he) hcap [.kdValidate]
    rw [List.cons_append, runEvents_commands_cons (t := completed .kbClr s) he rfl, hrun]
    exact ht.runEvents_kdValidate
  · obtain ⟨t, ht, hrun⟩ := (loaded_ksClr h he).runEvents_ksPush hcap [.kdParse, .kdValidate]
    rw [List.cons_append, runEvents_commands_cons (t := completed .ksClr s) he rfl, hrun,
      runEvents_commands_cons ht.err (exec_kdParse ht.inv)]
    exact ht.kdParse.runEvents_kdValidate

/-! ### No command reads VRES or KDNUM (41_key_validation.md R122, 10_state.md R25) -/

/-- Where the first result is a next state, so is the second, and the two agree on everything but
`VRES` and `KDNUM`. -/
def AnswersAlike (r q : Result) : Prop :=
  ∀ t, r = .next t → ∃ t', q = .next t' ∧
    { t' with vres := .none, kdnum := false } = { t with vres := .none, kdnum := false }

namespace AnswersAlike

theorem next {s s' : State}
    (h : { s' with vres := .none, kdnum := false } = { s with vres := .none, kdnum := false }) :
    AnswersAlike (.next s) (.next s') := by
  intro t ht
  obtain rfl := Host.Outcome.next.inj ht
  exact ⟨s', rfl, h⟩

/-- A test that reads neither register takes the same branch on both sides. -/
theorem ite {p : Prop} [Decidable p] {r r' q q' : Result} (hr : AnswersAlike r r')
    (hq : AnswersAlike q q') : AnswersAlike (if p then r else q) (if p then r' else q') := by
  split
  · exact hr
  · exact hq

theorem stop (f : Fault) : AnswersAlike (.fault f) (.fault f) := fun _ ht => by cases ht

theorem ifByteExists {j : Nat} {r r' : Result} (h : AnswersAlike r r') :
    AnswersAlike (ifByteExists j r) (ifByteExists j r') := ite h (stop _)

theorem ifBytesExist {n : Nat} {r r' : Result} (h : AnswersAlike r r') :
    AnswersAlike (ifBytesExist n r) (ifBytesExist n r') := ite h (stop _)

/-- No test or guard of a command reads either register, and no value it writes elsewhere depends on
them. -/
theorem exec (i : Instr) (s : State) (v : Verdict) (k : Bool) :
    AnswersAlike (exec i s) (exec i { s with vres := v, kdnum := k }) := by
  cases i with
  | nop | clrErr | ksClr | kbClr | kdValidate | msgEnc | msgDec | msgEnd => exact next rfl
  | kdParse | engNew => exact ifBytesExist (next rfl)
  | ksPush _ | kbPush _ | kbRead _ | keyRead _ => exact ite (next rfl) (ifByteExists (next rfl))
  | xfer _ => exact ite (next rfl) (ite (next rfl) (ifByteExists (next rfl)))

end AnswersAlike

/-- Settles O39. -/
theorem noCommandReadsVresOrKdnum : Obligations.NoCommandReadsVresOrKdnum :=
  fun i s t v k h => AnswersAlike.exec i s v k t h

end Sys2Proof.Machine
end

section
/-! PROOFS: the cipher engine (42_cipher_engine.md). The modular adder of R131 and R132 is the
library's sum and difference of bytes; then each command of R133 to R139. A message is followed byte
by byte (`Transferred`) to its end (`AfterMessage`): its outputs are the source's (R141, R142), a
message of the other mode undoes them (R143), and they depend only on the key bytes that indices
modulo `L` select (R144). Last the messages of R145, which output nothing. -/

namespace Sys2Proof.Machine

/-! ### The modular adder (42_cipher_engine.md R131, R132) -/

theorem toNat_add8 (d k : Byte) : (add8 d k).toNat = (d.toNat + k.toNat) % 256 := by
  simp [add8]

theorem toNat_sub8 (d k : Byte) : (sub8 d k).toNat = (d.toNat + 256 - k.toNat) % 256 := by
  simp [sub8]

/-- The difference as the rule writes it, in the integers. -/
theorem toNat_sub8_int (d k : Byte) :
    ((sub8 d k).toNat : Int) = ((d.toNat : Int) - k.toNat + 256) % 256 := by
  have hk : k.toNat < 256 := k.isLt
  rw [toNat_sub8]
  omega

theorem add8_eq_add (d k : Byte) : add8 d k = d + k := by
  apply BitVec.eq_of_toNat_eq
  rw [toNat_add8, BitVec.toNat_add]

theorem sub8_eq_sub (d k : Byte) : sub8 d k = d - k := by
  have hk : k.toNat < 256 := k.isLt
  apply BitVec.eq_of_toNat_eq
  rw [toNat_sub8, BitVec.toNat_sub]
  omega

/-- Settles O42: each term is below 512, so one subtraction of 256 reduces it. -/
theorem modularAdderReducesOnce : Obligations.ModularAdderReducesOnce := by
  intro d k
  have hd : d.toNat < 256 := d.isLt
  have hk : k.toNat < 256 := k.isLt
  refine ⟨toNat_add8 d k, toNat_sub8_int d k, ?_, ?_⟩
  · rw [toNat_add8]
    split_ifs <;> omega
  · rw [toNat_sub8_int]
    split_ifs <;> omega

/-- Settles O43. -/
theorem adderAndSubtractorAreInverse : Obligations.AdderAndSubtractorAreInverse := by
  intro d k
  simp only [add8_eq_add, sub8_eq_sub]
  exact ⟨BitVec.add_sub_cancel d k, BitVec.sub_add_cancel d k⟩

/-- The transforms of the two modes under one key byte are inverse. -/
theorem transform_transform {m n : Mode} (h : n ≠ m) (d k : Byte) :
    transform n (transform m d k) k = d := by
  obtain ⟨hsub, hadd⟩ := adderAndSubtractorAreInverse d k
  cases m with
  | encrypt =>
    cases n with
    | encrypt => exact absurd rfl h
    | decrypt => exact hsub
  | decrypt =>
    cases n with
    | encrypt => exact hadd
    | decrypt => exact absurd rfl h

/-! ### Binding and reading a key (42_cipher_engine.md R133, R134) -/

@[simp] theorem State.length_keyBytes (s : State) : s.keyBytes.length = s.kblen :=
  Memory.length_bytes _ _

@[simp] theorem State.length_engineKey (s : State) : s.engineKey.length = s.klen :=
  Memory.length_bytes _ _

/-- After `ENG_NEW` the engine key is what the key bytes were. -/
theorem engineKey_completed_engNew {s : State} (h : s.Inv) :
    (completed .engNew s).engineKey = s.keyBytes := by
  rw [State.engineKey, completed, ← s.length_keyBytes]
  exact Memory.bytes_writeFrom h.key_wf _

/-- Settles O44. -/
theorem engNewBindsTheKeyBytes : Obligations.EngNewBindsTheKeyBytes := by
  refine ⟨rfl, fun s h => ⟨_, exec_of_inv h .engNew, fun a ha => ?_, fun a ha => ?_⟩⟩
  · have hlt : a < s.keyBytes.length := by rwa [s.length_keyBytes]
    rw [Memory.read_writeFrom h.key_wf, if_pos (by omega), Nat.sub_zero,
      List.getD_eq_getElem _ _ hlt]
    exact Memory.getElem_bytes _ _ _ hlt
  · rw [Memory.read_writeFrom h.key_wf, s.length_keyBytes, if_neg (by omega)]

/-- Settles O45. -/
theorem keyReadReadsOneByteIntoRes : Obligations.KeyReadReadsOneByteIntoRes := by
  intro s idx h
  refine ⟨encodeI_eq_or _ idx, fun hidx => ?_, fun hle => (guarded_keyRead idx s).exec_of_cause hle⟩
  have hlt : idx.toNat < s.klen := by rwa [s.length_engineKey] at hidx
  have hbyte : s.engineKey[idx.toNat] = Memory.read s.key idx.toNat :=
    Memory.getElem_bytes _ _ _ hidx
  rw [hbyte]
  exact (guarded_keyRead idx s).exec_of_no_cause hlt.not_ge (hlt.trans_le h.klen_le)

/-! ### The commands of a message (42_cipher_engine.md R136 to R139) -/

/-- Settles O46. -/
theorem messageCommandsOpenAMessage : Obligations.MessageCommandsOpenAMessage :=
  ⟨rfl, rfl, fun s => ⟨exec_openingOf .encrypt s, exec_openingOf .decrypt s⟩⟩

/-- Settles O47. -/
theorem msgEndClosesTheMessage : Obligations.MsgEndClosesTheMessage := ⟨rfl, fun _ => rfl⟩

/-- Settles O48. -/
theorem xferTransformsOneByte : Obligations.XferTransformsOneByte := by
  intro s d h
  refine ⟨encodeB_eq_or _ d, fun ha hl => ?_, fun ha => ?_, fun ha h0 => ?_⟩
  · refine ⟨transform s.mode d (Memory.read s.key s.kidx),
      (guarded_xfer d ha).exec_of_no_cause hl.ne' (h.kidx_lt_cap hl), fun hm => ?_, fun hm => ?_⟩
    · rw [hm]
      exact toNat_add8 d _
    · rw [hm]
      exact toNat_sub8_int d _
  · have hf : faultOf (.xfer d) s = some .noMessage := if_pos ha
    rw [exec_xfer_of_closed d ha, afterCommand_of_fault hf]
    rfl
  · exact (guarded_xfer d ha).exec_of_cause h0

/-! ### What a message outputs (42_cipher_engine.md R141, R142) -/

/-- The outputs of a message: byte `i` is transformed with key byte `i mod L`. -/
def messageOutput (m : Mode) (key data : List Byte) : List Byte :=
  data.mapIdx fun i d => transform m d (keyAt key i)

@[simp] theorem length_messageOutput (m : Mode) (key data : List Byte) :
    (messageOutput m key data).length = data.length := List.length_mapIdx

theorem messageOutput_concat (m : Mode) (key data : List Byte) (d : Byte) :
    messageOutput m key (data ++ [d]) =
      messageOutput m key data ++ [transform m d (keyAt key data.length)] := List.mapIdx_concat

/-- The outputs of a message are the result of the source's operation. -/
theorem sourceTransform_eq_messageOutput (m : Mode) {key : List Byte} (hk : key ≠ [])
    (data : List Byte) : sourceTransform m key data = some (messageOutput m key data) := by
  cases m with
  | encrypt => simp [sourceTransform, sourceEncrypt, hk, messageOutput, transform, add8_eq_add]
  | decrypt => simp [sourceTransform, sourceDecrypt, hk, messageOutput, transform, sub8_eq_sub]

/-- A message of the other mode over the outputs restores the data. -/
theorem messageOutput_messageOutput {m n : Mode} (h : n ≠ m) (key data : List Byte) :
    messageOutput n key (messageOutput m key data) = data := by
  apply List.ext_getElem (by simp)
  intro i _ _
  simp only [messageOutput, List.getElem_mapIdx, transform_transform h]

/-- Key byte `i mod L` of the bound key. -/
theorem keyAt_engineKey {s : State} (hl : 0 < s.klen) (i : Nat) :
    keyAt s.engineKey i = Memory.read s.key (i % s.klen) := by
  have hlt : i % s.klen < s.engineKey.length := by
    rw [s.length_engineKey]
    exact Nat.mod_lt i hl
  rw [keyAt, s.length_engineKey, List.getD_eq_getElem _ _ hlt]
  exact Memory.getElem_bytes _ _ _ hlt

/-! ### Running a message (42_cipher_engine.md R135) -/

/-- With no fault recorded a run that starts with a command goes on after it. -/
theorem runEvents_command_cons {s t : State} {i : Instr} (he : s.err = none)
    (hx : exec i s = .next t) (es : List HostEvent) :
    runEvents (HostEvent.command (encode i) :: es) s = runEvents es t := by
  rw [runEvents_cons, serve_command, execute_command he (decode_encode i), hx, Result.andThen_next]

/-- A run that starts with a read of `RES` goes on with its value returned. -/
theorem runEvents_rdRes_cons (es : List HostEvent) (s : State) :
    runEvents (HostEvent.rd .RES :: es) s =
      runEvents es { s with reads := s.reads ++ [resWord s.res] } := by
  rw [runEvents_cons, serve_rd, Result.andThen_next, busRead_res, resWord]

/-- The first data byte of a message is transferred and read before the others. -/
theorem flatMap_transferAndRead_cons (d : Byte) (ds : List Byte) (es : List HostEvent) :
    (d :: ds).flatMap transferAndRead ++ es =
      HostEvent.command (encode (.xfer d)) :: HostEvent.rd .RES ::
        (ds.flatMap transferAndRead ++ es) := rfl

/-- The bytes of `done` have been transferred in a message of mode `m` under the key of `s`, and the
output of each has been read. -/
structure Transferred (s : State) (m : Mode) (done : List Byte) (t : State) : Prop where
  inMessage : InMessage s m done.length t
  reads : t.reads = s.reads ++ (messageOutput m s.engineKey done).map resWord
  faultLog : t.faultLog = s.faultLog

theorem transferred_openMessage {s : State} (h : s.Inv) (he : s.err = none) (m : Mode) :
    Transferred s m [] (openMessage m s) where
  inMessage := openMessage_inMessage h he m
  reads := (List.append_nil _).symm
  faultLog := rfl

/-- An `XFER` of an open message with a key completes. -/
theorem InMessage.xfer_completed {s t : State} {m : Mode} {k : Nat} (hl : 0 < s.klen)
    (h : InMessage s m k t) (d : Byte) :
    exec (.xfer d) t = .next (completed (.xfer d) t) ∧
      InMessage s m (k + 1) (completed (.xfer d) t) := by
  have hk : 0 < t.klen := h.klen ▸ hl
  have hx : exec (.xfer d) t = .next (completed (.xfer d) t) :=
    (guarded_xfer d h.active).exec_of_no_cause hk.ne' (h.inv.kidx_lt_cap hk)
  obtain ⟨u, hu, hin⟩ := h.xfer hl d
  obtain rfl := Host.Outcome.next.inj (hx.symm.trans hu)
  exact ⟨hx, hin⟩

/-- The result of the `XFER` after `k` bytes is made with key byte `k mod L`. -/
theorem InMessage.res_completed_xfer {s t : State} {m : Mode} {k : Nat} (hl : 0 < s.klen)
    (h : InMessage s m k t) (d : Byte) :
    (completed (.xfer d) t).res = transform m d (keyAt s.engineKey k) := by
  rw [keyAt_engineKey hl, completed, h.mode, h.key, h.kidx]

/-- One more byte transferred and its output read: the run goes on from there. -/
theorem Transferred.runEvents_xfer_rdRes {s t : State} {m : Mode} {done : List Byte}
    (hl : 0 < s.klen) (h : Transferred s m done t) (d : Byte) (es : List HostEvent) :
    ∃ u, Transferred s m (done ++ [d]) u ∧
      runEvents (HostEvent.command (encode (.xfer d)) :: HostEvent.rd .RES :: es) t =
        runEvents es u := by
  obtain ⟨hx, hin⟩ := h.inMessage.xfer_completed hl d
  have hout := h.inMessage.res_completed_xfer hl d
  refine ⟨{ completed (.xfer d) t with reads := t.reads ++ [resWord (completed (.xfer d) t).res] },
    ⟨?_, ?_, h.faultLog⟩, ?_⟩
  · rw [List.length_append, List.length_singleton]
    exact { hin with inv := hin.inv.withHost _ _ }
  · simp only [hout, h.reads, messageOutput_concat, List.map_append, List.map_singleton,
      List.append_assoc]
  · rw [runEvents_command_cons h.inMessage.err hx, runEvents_rdRes_cons]
    rfl

/-- All bytes of a message transferred and read: the run goes on from there. -/
theorem Transferred.runEvents_flatMap {s t : State} {m : Mode} {done : List Byte} (hl : 0 < s.klen)
    (h : Transferred s m done t) (data : List Byte) (es : List HostEvent) :
    ∃ u, Transferred s m (done ++ data) u ∧
      runEvents (data.flatMap transferAndRead ++ es) t = runEvents es u := by
  induction data generalizing done t with
  | nil => exact ⟨t, by rwa [List.append_nil], rfl⟩
  | cons d ds ih =>
    obtain ⟨v, hv, hd⟩ := h.runEvents_xfer_rdRes hl d (ds.flatMap transferAndRead ++ es)
    obtain ⟨u, hu, hds⟩ := ih hv
    refine ⟨u, by rwa [List.append_cons], ?_⟩
    rw [flatMap_transferAndRead_cons, hd, hds]

/-- A message of mode `m` over `data` has been run from `s`, and its outputs have been read. -/
structure AfterMessage (s : State) (m : Mode) (data : List Byte) (t : State) : Prop where
  inv : t.Inv
  err : t.err = none
  faultLog : t.faultLog = s.faultLog
  active : t.active = false
  klen : t.klen = s.klen
  engineKey : t.engineKey = s.engineKey
  reads : t.reads = s.reads ++ (messageOutput m s.engineKey data).map resWord

/-- `MSG_END` ends the message. -/
theorem Transferred.afterMessage {s t : State} {m : Mode} {data : List Byte}
    (h : Transferred s m data t) :
    AfterMessage s m data { completed .msgEnd t with inputs := [] } where
  inv := (completed_inv (i := .msgEnd) h.inMessage.inv rfl).withHost [] t.reads
  err := h.inMessage.err
  faultLog := h.faultLog
  active := rfl
  klen := h.inMessage.klen
  engineKey := by simp only [State.engineKey, completed, h.inMessage.key, h.inMessage.klen]
  reads := h.reads

/-- A whole message under a bound key is run without a fault. -/
theorem runEvents_messageEvents {s : State} (h : s.Inv) (he : s.err = none) (hl : 0 < s.klen)
    (m : Mode) (data : List Byte) :
    ∃ t, runEvents (messageEvents m data) s = .next t ∧ AfterMessage s m data t := by
  obtain ⟨u, hu, hrun⟩ := (transferred_openMessage h he m).runEvents_flatMap hl data
    [HostEvent.command (encode .msgEnd)]
  refine ⟨_, ?_, hu.afterMessage⟩
  rw [messageEvents, runEvents_command_cons he (exec_openingOf m s), hrun,
    runEvents_command_cons hu.inMessage.err (exec_of_inv hu.inMessage.inv .msgEnd)]
  rfl

theorem State.engineKey_ne_nil {s : State} (hl : 0 < s.klen) : s.engineKey ≠ [] := by
  rwa [← List.length_pos_iff, s.length_engineKey]

/-- Settles O50. -/
theorem messageComputesTheSourceTransform : Obligations.MessageComputesTheSourceTransform := by
  intro s m data h he hl
  obtain ⟨t, hrun, ht⟩ := runEvents_messageEvents h he hl m data
  exact ⟨_, t, sourceTransform_eq_messageOutput m (State.engineKey_ne_nil hl) data, hrun, ht.reads,
    ht.err, ht.faultLog, ht.active, ht.engineKey⟩

/-! ### A message of the other mode (42_cipher_engine.md R143) -/

/-- Settles O51: the first message leaves the key bound, so the second undoes it byte for byte. -/
theorem oppositeMessageRestoresTheData : Obligations.OppositeMessageRestoresTheData := by
  intro s m n data h he hl hne
  obtain ⟨t, hrun, ht⟩ := runEvents_messageEvents h he hl m data
  obtain ⟨u, hrun', hu⟩ := runEvents_messageEvents ht.inv ht.err (ht.klen ▸ hl) n
    (messageOutput m s.engineKey data)
  refine ⟨_, t, u, length_messageOutput _ _ _, hrun, ht.reads, hrun', ?_⟩
  rw [hu.reads, ht.engineKey, messageOutput_messageOutput hne]

/-! ### A repeated key (42_cipher_engine.md R144) -/

/-- Byte `j` of a repeated sequence is byte `j mod L` of the sequence. -/
theorem getD_flatten_replicate (key : List Byte) {r j : Nat} (hj : j < r * key.length) :
    (List.replicate r key).flatten.getD j 0#8 = key.getD (j % key.length) 0#8 := by
  induction r generalizing j with
  | zero => omega
  | succ r ih =>
    rw [List.replicate_succ, List.flatten_cons]
    rcases Nat.lt_or_ge j key.length with hlt | hge
    · rw [List.getD_append _ _ _ _ hlt, Nat.mod_eq_of_lt hlt]
    · rw [Nat.succ_mul] at hj
      rw [List.getD_append_right _ _ _ _ hge, ih (by omega), Nat.mod_eq_sub_mod hge]

/-- A repeated key has the same byte at every data index. -/
theorem keyAt_flatten_replicate {key : List Byte} {r : Nat} (hr : 1 ≤ r) (hk : 0 < key.length)
    (i : Nat) : keyAt (List.replicate r key).flatten i = keyAt key i := by
  have hlen : (List.replicate r key).flatten.length = r * key.length := by simp
  have hlt : i % (r * key.length) < r * key.length := Nat.mod_lt _ (Nat.mul_pos hr hk)
  rw [keyAt, keyAt, hlen, getD_flatten_replicate key hlt, Nat.mod_mul_left_mod]

/-- Binding the key bytes and running a message outputs the transform under them. -/
theorem runEvents_engNew_messageEvents {s : State} (h : s.Inv) (he : s.err = none)
    (hk : 0 < s.kblen) (m : Mode) (data : List Byte) :
    ∃ t, runEvents (commands [.engNew] ++ messageEvents m data) s = .next t ∧ t.err = none ∧
      t.faultLog = s.faultLog ∧
      t.reads = s.reads ++ (messageOutput m s.keyBytes data).map resWord := by
  have hbound : (completed .engNew s).Inv := completed_inv h rfl
  obtain ⟨t, hrun, ht⟩ := runEvents_messageEvents hbound he hk m data
  refine ⟨t, ?_, ht.err, ht.faultLog, ?_⟩
  · exact (runEvents_command_cons he (exec_of_inv h .engNew) _).trans hrun
  · rw [ht.reads, engineKey_completed_engNew h]
    rfl

/-- Settles O52. -/
theorem repeatedKeyGivesTheSameOutputs : Obligations.RepeatedKeyGivesTheSameOutputs := by
  intro s s' r m data h h' he he' hr hk hkey
  have hlen : s'.kblen = r * s.kblen := by simpa using congrArg List.length hkey
  have hk' : 0 < s'.kblen := hlen ▸ Nat.mul_pos hr hk
  have hout : messageOutput m s'.keyBytes data = messageOutput m s.keyBytes data := by
    simp only [messageOutput, hkey, keyAt_flatten_replicate hr (s.length_keyBytes ▸ hk)]
  obtain ⟨t, hrun, hterr, -, hreads⟩ := runEvents_engNew_messageEvents h he hk m data
  obtain ⟨t', hrun', hterr', -, hreads'⟩ := runEvents_engNew_messageEvents h' he' hk' m data
  exact ⟨_, t, t', by simp, hrun, hrun', hreads, hout ▸ hreads', hterr, hterr'⟩

/-! ### Messages without output (42_cipher_engine.md R145) -/

/-- While a fault is recorded a run that starts with another command than `CLR_ERR` goes on as if it
were not there. -/
theorem runEvents_command_cons_faulted {s : State} (he : s.err ≠ none) {i : Instr}
    (hi : i ≠ .clrErr) (es : List HostEvent) :
    runEvents (HostEvent.command (encode i) :: es) s = runEvents es s := by
  rw [runEvents_cons, serve_command, execute_encode_faulted he hi, Result.andThen_next]

/-- While a fault is recorded the transfers are dropped, and each read of `RES` returns the byte it
held. -/
theorem runEvents_flatMap_faulted {s : State} (he : s.err ≠ none) (data : List Byte)
    (es : List HostEvent) :
    runEvents (data.flatMap transferAndRead ++ es) s =
      runEvents es
        { s with reads := s.reads ++ List.replicate data.length (resWord s.res) } := by
  induction data generalizing s with
  | nil => simp
  | cons d ds ih =>
    have hds := ih (s := { s with reads := s.reads ++ [resWord s.res] }) he
    rw [flatMap_transferAndRead_cons, runEvents_command_cons_faulted he (by simp),
      runEvents_rdRes_cons, hds, List.append_assoc, List.singleton_append, List.length_cons,
      List.replicate_succ]

/-- With no key the first `XFER` of a message faults `MODULO_BY_ZERO`, and the rest of the message
is dropped. -/
theorem runEvents_messageEvents_of_klen_zero {s : State} (he : s.err = none) (hl : s.klen = 0)
    (m : Mode) (d : Byte) (ds : List Byte) :
    runEvents (messageEvents m (d :: ds)) s =
      .next { raiseFault .moduloByZero (openMessage m s) with
        inputs := []
        reads := s.reads ++ List.replicate (ds.length + 1) (resWord s.res) } := by
  have hopen : (openMessage m s).err = none := he
  have hfault : exec (.xfer d) (openMessage m s) =
      .next (raiseFault .moduloByZero (openMessage m s)) :=
    (guarded_xfer d rfl).exec_of_cause hl
  rw [messageEvents, runEvents_command_cons he (exec_openingOf m s), flatMap_transferAndRead_cons,
    runEvents_command_cons hopen hfault, runEvents_rdRes_cons, runEvents_flatMap_faulted (by simp),
    runEvents_command_cons_faulted (by simp) (by simp), runEvents_nil]
  simp [List.replicate_succ]

/-- Settles O53. -/
theorem emptyMessageAndZeroLengthKey : Obligations.EmptyMessageAndZeroLengthKey := by
  intro s m h he
  have hopen : (openMessage m s).err = none := he
  refine ⟨⟨{ completed .msgEnd (openMessage m s) with inputs := [] }, ?_, rfl, rfl, he, rfl, rfl⟩,
    fun hl d ds => ⟨_, runEvents_messageEvents_of_klen_zero he hl m d ds, rfl, rfl, rfl, rfl, rfl⟩⟩
  rw [messageEvents, runEvents_command_cons he (exec_openingOf m s), List.flatMap_nil,
    List.nil_append, runEvents_command_cons hopen (exec_of_inv (openMessage_inv h m) .msgEnd)]
  rfl

end Sys2Proof.Machine
end

section
/-! PROOFS: the control commands (43_control.md). Each word of R160 and R161 is the only word of its
command and acts in every state; a word of either opcode with a reserved bit set is illegal. -/

namespace Sys2Proof.Machine

/-- A command has exactly one word (30_encoding.md R77, R81). -/
theorem decode_eq_command_iff {w : Word} {i : Instr} : decode w = .command i ↔ w = encode i :=
  ⟨eq_encode_of_decode, fun h => h ▸ decode_encode i⟩

/-- `NOP` runs or is dropped, to the same effect. -/
theorem execute_encode_nop (s : State) : execute (encode .nop) s = .next s := by
  by_cases he : s.err = none
  · exact execute_command he (decode_encode .nop)
  · exact execute_encode_faulted he (by decide)

/-- Opcodes 0x00 and 0x01 are of format N, so no bit above the opcode may be set. -/
theorem decode_control_reservedBits {w : Word} (hop : w.toNat % 256 ≤ 0x01)
    (hres : w.toNat / 256 ≠ 0) : decode w = .illegal .reservedBits := by
  have hN : (opcodeOf w).toNat ∈ opcodesN := by
    rw [toNat_opcodeOf]
    obtain h | h : w.toNat % 256 = 0x00 ∨ w.toNat % 256 = 0x01 := by omega
    · rw [h]; decide
    · rw [h]; decide
  exact (decode_reservedBits_iff w).2 (.inl ⟨hN, hres⟩)

/-- While a fault is recorded an illegal word is dropped. -/
theorem execute_illegal_faulted {w : Word} {why : IllegalReason} {s : State} (he : s.err ≠ none)
    (hd : decode w = .illegal why) : execute w s = .next s := by
  rw [execute_faulted he, if_neg (ne_clrErrWord_of_illegal hd)]

/-- Settles O25: the two written words are `encode .nop` and `encode .clrErr` by computation. -/
theorem controlCommandsDoWhatTheySay : Obligations.ControlCommandsDoWhatTheySay := by
  refine ⟨fun _ => ⟨rfl, rfl⟩, fun _ => decode_eq_command_iff, fun _ => decode_eq_command_iff,
    fun s => ⟨execute_encode_nop s, execute_encode_clrErr s⟩, fun s w hop hres => ?_⟩
  have hd := decode_control_reservedBits hop hres
  exact ⟨fun he => execute_illegal he hd, fun he => execute_illegal_faulted he hd⟩

end Sys2Proof.Machine
end

section
/-! PROOFS: the faults of the block (60_exceptions.md). A command whose cause holds takes the fault of
that cause and does nothing else (R171, R174, R175); the fault log gains exactly the faults taken
(R185); in drop mode only `CLR_ERR` acts (R173). -/

namespace Sys2Proof.Machine

/-! ### The fault of each cause (60_exceptions.md R171, R174, R175) -/

/-- The fault of a guarded command, when it has one, is the fault it takes. -/
theorem Guarded.exec_of_faultOf {i : Instr} {s : State} {cause : Prop} {c d : ErrCode} {j : Nat}
    (g : Guarded i s cause c j) (hf : faultOf i s = some d) : exec i s = .next (raiseFault d s) := by
  by_cases hc : cause
  · obtain ⟨hfc, hx⟩ := g.fault hc
    cases hfc.symm.trans hf
    exact hx
  · obtain ⟨hnone, -⟩ := g.complete hc
    cases hnone.symm.trans hf

/-- In every state a command whose cause holds takes the fault of that cause: the test comes before
the index guard. -/
theorem exec_of_faultOf {i : Instr} {s : State} {c : ErrCode} (hf : faultOf i s = some c) :
    exec i s = .next (raiseFault c s) := by
  cases i with
  | ksPush b => exact (guarded_ksPush b s).exec_of_faultOf hf
  | kbPush b => exact (guarded_kbPush b s).exec_of_faultOf hf
  | kbRead idx => exact (guarded_kbRead idx s).exec_of_faultOf hf
  | keyRead idx => exact (guarded_keyRead idx s).exec_of_faultOf hf
  | xfer d =>
    cases ha : s.active with
    | false => rw [exec_xfer_of_closed d ha, afterCommand_of_fault hf]
    | true => exact (guarded_xfer d ha).exec_of_faultOf hf
  | nop | clrErr | ksClr | kdParse | kbClr | kdValidate | engNew | msgEnc | msgDec | msgEnd =>
    cases hf

/-- With no fault recorded before it, a command leaves recorded the fault of its cause, or none. -/
theorem afterCommand_err {s : State} (he : s.err = none) (i : Instr) :
    (afterCommand i s).err = faultOf i s := by
  cases hf : faultOf i s with
  | some c => rw [afterCommand_of_fault hf, raiseFault_err]
  | none => rw [afterCommand_of_no_fault hf, completed_err he]

/-- Settles O20: under the invariant every command answers `afterCommand`, and the statement's causes
are those of `faultOf`, command by command. -/
theorem faultsAreRaisedExactlyForTheirCauses : Obligations.FaultsAreRaisedExactlyForTheirCauses := by
  intro i s h he
  refine ⟨afterCommand i s, exec_of_inv h i, (afterCommand_err he i).trans ?_⟩
  cases i <;> rfl

/-- Settles O21: the written states are `raiseFault` of the code. -/
theorem faultsArePrecise : Obligations.FaultsArePrecise :=
  ⟨fun _ _ _ => exec_of_faultOf, fun _ _ _ => execute_illegal⟩

/-! ### The fault log (60_exceptions.md R185) -/

/-- The log between two states: nothing was recorded and the log is as it was, or one fault was
recorded where there was none, and the log gained its code. -/
def LogsItsFault (s t : State) : Prop :=
  (t.faultLog = s.faultLog ∧ (t.err = s.err ∨ t.err = none)) ∨
  ∃ c, s.err = none ∧ t.err = some c ∧ t.faultLog = s.faultLog ++ [c]

theorem raiseFault_logsItsFault {s : State} (he : s.err = none) (c : ErrCode) :
    LogsItsFault s (raiseFault c s) :=
  .inr ⟨c, he, rfl, rfl⟩

/-- No command that completes writes the log. -/
@[simp] theorem completed_faultLog (i : Instr) (s : State) :
    (completed i s).faultLog = s.faultLog := by
  cases i <;> rfl

theorem afterCommand_logsItsFault {s : State} (he : s.err = none) (i : Instr) :
    LogsItsFault s (afterCommand i s) := by
  cases hf : faultOf i s with
  | some c =>
    rw [afterCommand_of_fault hf]
    exact raiseFault_logsItsFault he c
  | none =>
    rw [afterCommand_of_no_fault hf]
    exact .inl ⟨completed_faultLog i s, .inr (completed_err he)⟩

theorem busWrite_logsItsFault {off : BitVec 6} {v : Word} {s t : State}
    (h : busWrite off v s = .next t) : LogsItsFault s t := by
  obtain ⟨-, rfl⟩ | ⟨-, -, rfl⟩ | ⟨-, he, -, rfl⟩ | ⟨-, he, i, -, hx⟩ := busWrite_eq_next h
  · exact .inl ⟨rfl, .inl rfl⟩
  · split_ifs
    · exact .inl ⟨rfl, .inr rfl⟩
    · exact .inl ⟨rfl, .inl rfl⟩
  · exact raiseFault_logsItsFault he .illegalCommand
  · rw [exec_eq_next hx]
    exact afterCommand_logsItsFault he i

/-- Settles O23: of the accesses a step can serve only a write can take a fault; a read leaves `ERR`
alone, and a reset clears it and keeps the log. -/
theorem faultLogRecordsEveryFault : Obligations.FaultLogRecordsEveryFault := by
  intro s t hs
  obtain ⟨-, rfl⟩ | ⟨e, rest, -, hserve⟩ := step_eq_next hs
  · exact .inl ⟨rfl, .inl rfl⟩
  · obtain ⟨off, -, -, rfl⟩ | ⟨off, v, -, -, hw⟩ | ⟨-, rfl⟩ := hserve
    · exact .inl ⟨rfl, .inl rfl⟩
    · exact busWrite_logsItsFault (s := { s with inputs := rest }) hw
    · exact .inl ⟨rfl, .inr rfl⟩

/-! ### Drop mode (60_exceptions.md R173) -/

/-- Settles O14: `clrErrWord` is the exact word, and a read does not look at `ERR`. -/
theorem dropModeDropsEveryOtherWord : Obligations.DropModeDropsEveryOtherWord := by
  intro s w off rest he
  refine ⟨fun hi => ⟨fun hw => ?_, fun hw => ?_⟩, fun haligned => step_read ?_⟩
  · rw [step_command_faulted hi he, if_pos (show w = clrErrWord from hw), clearFault]
  · rw [step_command_faulted hi he, if_neg (show w ≠ clrErrWord from hw)]
  · simp [offsetAligned, haligned]

end Sys2Proof.Machine
end

section
/-! PROOFS: reset and hazards (70_reset_and_hazards.md). The reset event (R200) and the samples of
the slave port (R201); a run in drop mode (R204), from which a run of commands that ends with no fault
recorded took none; then the boot order (R202), for both ways of loading a key. -/

namespace Sys2Proof.Machine

/-! ### The reset event (70_reset_and_hazards.md R200) -/

/-- Settles O2. -/
theorem resetEventRestoresResetValues : Obligations.ResetEventRestoresResetValues := by
  intro s rest hi
  exact ⟨resetBlock { s with inputs := rest }, step_cons hi, rfl, rfl, rfl, rfl, rfl, rfl, rfl, rfl,
    rfl, rfl, rfl, rfl, rfl, rfl⟩

/-! ### The slave port (70_reset_and_hazards.md R201) -/

theorem offsetAligned_offset (p : PortInputs) : offsetAligned p.offset = true := by
  have h : ∀ addr : BitVec 4, offsetAligned (addr ++ 0#2) = true := by decide
  exact h p.addr

theorem selectOf_offset (p : PortInputs) : selectOf p.offset = p.addr := by
  have h : ∀ addr : BitVec 4, selectOf (addr ++ 0#2) = addr := by decide
  exact h p.addr

/-- Settles O18: the signals name an aligned offset, whose selector is `addr`. -/
theorem portSampleMakesItsAccess : Obligations.PortSampleMakesItsAccess := by
  intro s p rest hrst hsel
  refine ⟨fun hwr hi => ⟨regRead s p.addr, ?_, ?_⟩, fun hwr hi => ?_⟩
  · simp [PortInputs.rdata?, hrst, hsel, hwr]
  · have hread : s.inputs = .read p.offset 32 :: rest := by
      simpa [PortInputs.event?, hrst, hsel, hwr] using hi
    rw [step_read (offsetAligned_offset p) hread, busRead, selectOf_offset]
  · have hwrite : s.inputs = .write p.offset 32 p.wdata :: rest := by
      simpa [PortInputs.event?, hrst, hsel, hwr] using hi
    rw [step_write (offsetAligned_offset p) hwrite, busWrite, selectOf_offset]

/-! ### Runs in drop mode (70_reset_and_hazards.md R204) -/

/-- An access that drop mode leaves without effect: well formed, no reset and not the exact
`CLR_ERR` word (60_exceptions.md R173). -/
def HostEvent.inertInDropMode (e : HostEvent) : Prop :=
  e.wellFormed = true ∧ e ≠ .reset ∧ e ≠ HostEvent.command clrErrWord

/-- While a fault is recorded, such an access at most returns a register's value. -/
theorem serve_faulted {s : State} (he : s.err ≠ none) {e : HostEvent} (hd : e.inertInDropMode) :
    serve e s = .next { s with reads := s.reads ++ valuesRead s [e] } := by
  obtain ⟨hw, hreset, hclr⟩ := hd
  cases e with
  | reset => exact absurd rfl hreset
  | read off bits =>
    obtain ⟨hb, ha⟩ : bits = 32 ∧ offsetAligned off = true := by
      simpa [HostEvent.wellFormed] using hw
    exact ifAccessible_of_wellFormed _ hb ha
  | write off bits v =>
    obtain ⟨rfl, ha⟩ : bits = 32 ∧ offsetAligned off = true := by
      simpa [HostEvent.wellFormed] using hw
    have hdropped : busWrite off v s = .next s := by
      by_cases hs : selectOf off = 0#4
      · have hv : v ≠ clrErrWord := by
          rintro rfl
          exact hclr (congrArg (HostEvent.write · 32 clrErrWord) (offset_eq_cmd ha hs))
        rw [busWrite, if_pos hs, execute_faulted he, if_neg hv]
      · exact if_neg hs
    rw [serve, ifAccessible_of_wellFormed _ rfl ha, hdropped]
    simp [valuesRead]

/-- No register shows the values read before. -/
theorem valuesRead_withReads (s : State) (vs : List Word) (es : List HostEvent) :
    valuesRead { s with reads := vs } es = valuesRead s es := rfl

theorem valuesRead_cons (s : State) (e : HostEvent) (es : List HostEvent) :
    valuesRead s (e :: es) = valuesRead s [e] ++ valuesRead s es :=
  List.filterMap_append (l := [e]) (l' := es)

/-- Settles O24, by induction on the accesses: each leaves the faulted state but for the value it
reads, which no later read sees. -/
theorem runAfterFaultChangesNothing : Obligations.RunAfterFaultChangesNothing := by
  intro s es he hes
  induction es generalizing s with
  | nil =>
    simp [runEvents_nil, valuesRead]
  | cons e es ih =>
    obtain ⟨hd, hrest⟩ := List.forall_mem_cons.1 hes
    have hrun := ih { s with reads := s.reads ++ valuesRead s [e] } he hrest
    rw [runEvents_cons, serve_faulted he hd, Result.andThen_next, hrun,
      valuesRead_withReads s _ es, valuesRead_cons s e es, List.append_assoc]

/-! ### Runs of commands without a fault -/

/-- If a continuation answers, so did what it goes on from. -/
theorem Result.andThen_eq_next {r : Result} {f : State → Result} {t : State}
    (h : Result.andThen r f = .next t) : ∃ u, r = .next u ∧ f u = .next t := by
  cases r with
  | next u => exact ⟨u, rfl, h⟩
  | fault q | refused q => cases h

theorem steps_inv {k : Nat} {s t : State} (h : s.Inv) (hs : steps k s = .next t) : t.Inv := by
  induction k generalizing s with
  | zero =>
    cases hs
    exact h
  | succ k ih =>
    obtain ⟨u, hu, ht⟩ := Result.andThen_eq_next hs
    exact ih (step_inv h hu) ht

/-- A run keeps the invariant. -/
theorem runEvents_inv {es : List HostEvent} {s t : State} (h : s.Inv)
    (hrun : runEvents es s = .next t) : t.Inv :=
  steps_inv (h.withHost es s.reads) hrun

theorem command_encode_inertInDropMode {i : Instr} (hi : i ≠ .clrErr) :
    (HostEvent.command (encode i)).inertInDropMode := by
  refine ⟨rfl, by simp [HostEvent.command], fun hw => hi (eq_clrErr_of_encode ?_)⟩
  simpa [HostEvent.command] using hw

/-- Commands other than `CLR_ERR` leave a recorded fault recorded. -/
theorem runEvents_commands_err_ne_none {is : List Instr} (hclr : .clrErr ∉ is) {s t : State}
    (he : s.err ≠ none) (hrun : runEvents (commands is) s = .next t) : t.err ≠ none := by
  have hinert : ∀ e ∈ commands is, e.inertInDropMode := by
    refine List.forall_mem_map.2 fun i hi => command_encode_inertInDropMode ?_
    rintro rfl
    exact hclr hi
  cases (runAfterFaultChangesNothing s _ he hinert).symm.trans hrun
  exact he

/-- No command returns a value on `rdata`. -/
@[simp] theorem completed_reads (i : Instr) (s : State) : (completed i s).reads = s.reads := by
  cases i <;> rfl

/-- Commands other than `CLR_ERR` after which no fault is recorded took none: a fault would have
stayed. -/
theorem runEvents_commands_quiet {is : List Instr} (hclr : .clrErr ∉ is) {s t : State}
    (he : s.err = none) (hrun : runEvents (commands is) s = .next t) (ht : t.err = none) :
    t.faultLog = s.faultLog ∧ t.reads = s.reads := by
  induction is generalizing s with
  | nil =>
    cases hrun
    exact ⟨rfl, rfl⟩
  | cons i is ih =>
    have hclr := List.not_mem_of_not_mem_cons hclr
    obtain ⟨u, hu, hrest⟩ := Result.andThen_eq_next ((runEvents_cons _ _ s).symm.trans hrun)
    rw [serve_command, execute_command he (decode_encode i)] at hu
    rw [exec_eq_next hu] at hrest
    cases hf : faultOf i s with
    | some c =>
      rw [afterCommand_of_fault hf] at hrest
      exact absurd ht (runEvents_commands_err_ne_none hclr (by simp) hrest)
    | none =>
      rw [afterCommand_of_no_fault hf] at hrest
      simpa using ih hclr (completed_err he) hrest

/-! ### The boot order (70_reset_and_hazards.md R202) -/

/-- Bits [17:16] of `STATUS` are the verdict (10_state.md R34). -/
theorem extractLsb'_statusWord_vres (s : State) :
    (statusWord s).extractLsb' 16 2 = s.vres.code := by
  ext j hj
  simp only [statusWord, BitVec.getElem_extractLsb', BitVec.getLsbD_append]
  interval_cases j <;> simp

/-- A key that passes `validate_key` has a byte. -/
theorem length_pos_of_sourceValidateKey {key : List Byte} (h : sourceValidateKey key = none) :
    0 < key.length := by
  unfold sourceValidateKey at h
  split_ifs at h with h0
  exact Nat.pos_of_ne_zero h0

/-- Binding a loaded key and running a message outputs the source's transform under it. -/
theorem runEvents_engNew_messageEvents_source {s : State} (h : s.Inv) (he : s.err = none)
    (hk : 0 < s.keyBytes.length) (m : Mode) (data : List Byte) :
    ∃ out t, sourceTransform m s.keyBytes data = some out ∧
      runEvents (commands [.engNew] ++ messageEvents m data) s = .next t ∧
      t.reads = s.reads ++ out.map resWord ∧ t.err = none ∧ t.faultLog = s.faultLog := by
  obtain ⟨t, hrun, hterr, hlog, hreads⟩ :=
    runEvents_engNew_messageEvents h he (s.length_keyBytes ▸ hk) m data
  exact ⟨_, t, sourceTransform_eq_messageOutput m (List.length_pos_iff.1 hk) data, hrun, hreads,
    hterr, hlog⟩

/-- The boot order after any commands that load a key and leave its verdict: they take no fault, the
read of `STATUS` shows the verdict, and the message runs under the key. -/
theorem runEvents_bootOrder {s : State} (h : s.Inv) (he : s.err = none) {load : List Instr}
    (hclr : .clrErr ∉ load) {key : List Byte} (hvalid : sourceValidateKey key = none)
    (hload : ∃ u, runEvents (commands load) s = .next u ∧
      u.err = none ∧ u.keyBytes = key ∧ verdictAgrees u.vres key)
    (m : Mode) (data : List Byte) :
    ∃ status out t, sourceTransform m key data = some out ∧
      runEvents (commands load ++ [HostEvent.rd .STATUS] ++ commands [.engNew] ++
        messageEvents m data) s = .next t ∧
      t.reads = s.reads ++ status :: out.map resWord ∧
      status.extractLsb' 16 2 = 1#2 ∧ t.err = none ∧ t.faultLog = s.faultLog := by
  obtain ⟨u, hrun, huerr, rfl, hok, -, -⟩ := hload
  obtain ⟨hlog, hreads⟩ := runEvents_commands_quiet hclr he hrun huerr
  obtain ⟨out, t, hout, hmsg, htreads, hterr, htlog⟩ := runEvents_engNew_messageEvents_source
    ((runEvents_inv h hrun).withHost u.inputs (u.reads ++ [statusWord u])) huerr
    (length_pos_of_sourceValidateKey hvalid) m data
  refine ⟨statusWord u, out, t, hout, ?_, ?_, ?_, hterr, htlog.trans hlog⟩
  · rw [List.append_assoc, List.append_assoc, runsComposeInReceptionOrder, hrun,
      Result.andThen_next, List.singleton_append, runEvents_cons, serve_rd]
    exact hmsg
  · rw [htreads, hreads, List.append_assoc, List.singleton_append]
  · rw [extractLsb'_statusWord_vres]
    exact hok.2 hvalid

/-- Settles O56: `LOADKEY` loads the parse of the UTF-8 bytes, which is `parse_key` of the text. -/
theorem bootOrderComputesTheSourceFlow : Obligations.BootOrderComputesTheSourceFlow := by
  intro s text m data h he hcap hvalid
  have hload := validateCommandsComputeValidateKey.2 s (utf8 text) h he hcap
  rw [parseBytes_utf8] at hload
  exact runEvents_bootOrder h he (by simp) hvalid hload m data

/-- Settles O57. -/
theorem bootOrderWithARawKeyComputesTheSourceFlow :
    Obligations.BootOrderWithARawKeyComputesTheSourceFlow := by
  intro s k m data h he hcap hvalid
  have hload := validateCommandsComputeValidateKey.1 s k h he hcap
  exact runEvents_bootOrder h he (by simp) hvalid hload m data

end Sys2Proof.Machine
end
